-- ==== Sys2Proof/Word.lean ====
section
/-! DEFINITION. The word types: a byte of the buffer and the 16-bit register word (00_scope.md R10, 10_state.md R20). -/

namespace Sys2Proof

/-- A byte: 8 bits, bit 0 the least significant (00_scope.md R10). -/
abbrev Byte := BitVec 8

/-- The contents of a 16-bit register (10_state.md R20). -/
abbrev Word := BitVec 16

end Sys2Proof
end

