-- ==== Sys2Proof/Config.lean ====
section
/-! DEFINITION. What an implementation fixes: the constants of 00_scope.md R8, the capacity parameter of R9 with
the two widths that follow from it, and the one free value. -/

namespace Sys2Proof

/-- `FC_BYTES`: the frame-control pair (00_scope.md R8). -/
def Config.fcBytes : Nat := 2

/-- `U16_BYTES`: `duration`, `seq_control` and `crc` each (00_scope.md R8). -/
def Config.u16Bytes : Nat := 2

/-- `ADDR_BYTES`: one address (00_scope.md R8). -/
def Config.addrBytes : Nat := 6

/-- `N_ADDR`: the number of addresses (00_scope.md R8). -/
def Config.nAddr : Nat := 4

/-- `HDR_BYTES`: the fixed header, `2 + 2 + 4 * 6 + 2` (00_scope.md R8). -/
def Config.hdrBytes : Nat := Config.fcBytes + Config.u16Bytes + Config.nAddr * Config.addrBytes + Config.u16Bytes

/-- `TRAILER_BYTES`: the checksum (00_scope.md R8). -/
def Config.trailerBytes : Nat := 2

/-- `MIN_FRAME`: the shortest frame that decodes (00_scope.md R8). -/
def Config.minFrame : Nat := Config.hdrBytes + Config.trailerBytes

/-- `CAP` of the machine that `State.reset` describes: the value 00_scope.md R9 suggests for a concrete build.
DESIGN CHOICE (log 3), unsafe for a claim that leans on the number: every state carries its own `cap`, so a claim
about all states is about every `CAP`. -/
def Config.cap : Nat := 65535

/-- `AW`: the least `n` with `2^n > CAP`, the bits of a byte offset or byte count (00_scope.md R9). -/
def Config.addrWidth (cap : Nat) : Nat := if cap = 0 then 0 else Nat.log2 cap + 1

/-- `CW = AW + 3`: the bits of a bit offset (00_scope.md R9). -/
def Config.curWidth (cap : Nat) : Nat := Config.addrWidth cap + 3

/-- FREE VALUE (log 8): what a host read of a buffer byte at or above `LEN` gives when nothing has written that
byte since reset (10_state.md R34 "unspecified", 93_implementation_defined.md U11 "any value"). The argument counts
the draws, so that no two draws are tied to each other. No body: nothing can be proved of it. Safe. -/
opaque Config.freeByte : Nat → Byte

end Sys2Proof
end

