-- ==== Sys2Proof/Syntax.lean ====
section
/-! DEFINITION. The eleven operations (00_scope.md R2), the registers of the host's table (10_state.md R27), what
reaches the block from outside, and the pseudo-instructions (30_encoding.md R63). -/

namespace Sys2Proof

/-- The widths a bit-field read may ask for, `{1, 2, 4}` (00_scope.md R8, 30_encoding.md R58 `wc`). -/
inductive Width where
  | w1 | w2 | w4
deriving DecidableEq, Repr

/-- The 16-bit record registers an operand may name (30_encoding.md R58 `rd`). -/
inductive U16Reg where
  | duration | seqControl | crc
deriving DecidableEq, Repr

/-- The address registers an operand may name (30_encoding.md R58 `ra`). -/
inductive AddrReg where
  | addr1 | addr2 | addr3 | addr4
deriving DecidableEq, Repr

/-- The operations, one constructor per row of the opcode table (30_encoding.md R57). An operand is held as the
thing it selects, so the reserved selector values (`wc = 3`, `rd = 3`) are no terms of this type. -/
inductive Instr where
  | rdbits (w : Width)
  | rdfc
  | rdu16 (rd : U16Reg)
  | rdaddr (ra : AddrReg)
  | span
  | parse
  | setfc
  | setaddrs
  | setdur
  | setseq
  | setcrc
deriving DecidableEq, Repr

/-- The registers of the host's table (10_state.md R27). -/
inductive HostReg where
  | cmd | status | errOff | len | cur | bitval | payOff | payLen | fc | duration
  | addr (ra : AddrReg)
  | seqControl | crc | payload | argFc | argU16
  | argAddr (ra : AddrReg)
deriving DecidableEq, Repr

/-- What reaches the block from outside, one step each: the host's accesses (10_state.md R27, R28) and the
platform's reset (70_reset_and_hazards.md R120). An index and a value are plain numbers: whether the table has the
index and the register the width is checked when the access is served. -/
inductive Input where
  | write (index value : Nat)
  | read (index : Nat)
  | writeBuf (a : Nat) (b : Byte)
  | readBuf (a : Nat)
  | reset
deriving DecidableEq, Repr

/-- The pseudo-instructions (30_encoding.md R63). -/
inductive Pseudo where
  | rddur | rdseq | rdcrc | rewind | rdfcBits | parseSteps
deriving DecidableEq, Repr

end Sys2Proof
end

