-- ==== Sys2Proof/Decode.lean ====
section
/-! DEFINITION. Decoding a command byte (30_encoding.md R56 to R60) and, after it, encoding; decoding a register
index of the host's table with its widths and access rights (10_state.md R27). -/

namespace Sys2Proof

/-- Why a command byte is reserved: the four kinds 30_encoding.md R59 lists. -/
inductive Reserved where
  /-- `op` is not in the map. -/
  | op
  /-- `sel[3:2]` is not zero. -/
  | selHigh
  /-- `sel[1:0]` is not zero in an operation that has no operand. -/
  | selLow
  /-- The operand field holds its reserved value 3. -/
  | operand
deriving DecidableEq, Repr

/-- `wc`: 0, 1, 2 ask for 1, 2, 4 bits; 3 is reserved (30_encoding.md R58). -/
def decodeWidth (wc : BitVec 2) : Except Reserved Width :=
  match wc.toNat with
  | 0 => .ok .w1
  | 1 => .ok .w2
  | 2 => .ok .w4
  | _ => .error .operand

/-- `rd`: 0, 1, 2 name `DURATION`, `SEQ_CONTROL`, `CRC`; 3 is reserved (30_encoding.md R58). -/
def decodeU16Reg (rd : BitVec 2) : Except Reserved U16Reg :=
  match rd.toNat with
  | 0 => .ok .duration
  | 1 => .ok .seqControl
  | 2 => .ok .crc
  | _ => .error .operand

/-- `ra`: 0 to 3 name `ADDR1` to `ADDR4` (30_encoding.md R58). -/
def decodeAddrReg (ra : BitVec 2) : AddrReg :=
  match ra.toNat with
  | 0 => .addr1
  | 1 => .addr2
  | 2 => .addr3
  | _ => .addr4

/-- An operation without operand: `sel[1:0]` must be zero (30_encoding.md R59). -/
def decodePlain (lo : BitVec 2) (i : Instr) : Except Reserved Instr :=
  if lo = 0 then .ok i else .error .selLow

/-- `op` 0xA: each value of `rs` is a mnemonic of its own; 3 is reserved (30_encoding.md R58, R60). -/
def decodeSet16 (rs : BitVec 2) : Except Reserved Instr :=
  match rs.toNat with
  | 0 => .ok .setdur
  | 1 => .ok .setseq
  | 2 => .ok .setcrc
  | _ => .error .operand

/-- The decoder of 30_encoding.md R60, total on the 256 command bytes. -/
def decode (b : Byte) : Except Reserved Instr :=
  let op := b.extractLsb' 4 4
  let hi := b.extractLsb' 2 2
  let lo := b.extractLsb' 0 2
  if hi ≠ 0 then .error .selHigh
  else
    match op.toNat with
    | 0x1 => (decodeWidth lo).map .rdbits
    | 0x2 => decodePlain lo .rdfc
    | 0x3 => (decodeU16Reg lo).map .rdu16
    | 0x4 => .ok (.rdaddr (decodeAddrReg lo))
    | 0x5 => decodePlain lo .span
    | 0x6 => decodePlain lo .parse
    | 0x8 => decodePlain lo .setfc
    | 0x9 => decodePlain lo .setaddrs
    | 0xA => decodeSet16 lo
    | _ => .error .op

/-- The command byte of an instruction word as the opcode table numbers its bits: one byte, the bits above `nbits`
zero. -/
def tableByte (nbits w : Nat) : Byte := BitVec.ofNat 8 (w % 2 ^ nbits)

/-- The instruction the decoder reads from an instruction word as the opcode table numbers its bits. -/
def decodeTableWord (nbits w : Nat) : Option Instr := (decode (tableByte nbits w)).toOption

/-- A command byte from its fields: `op` 7:4, zero 3:2, operand 1:0 (30_encoding.md R56). -/
def commandByte (op : BitVec 4) (lo : BitVec 2) : Byte := op ++ 0#2 ++ lo

/-- The `wc` that asks for a width (30_encoding.md R58). -/
def encodeWidth : Width → BitVec 2
  | .w1 => 0
  | .w2 => 1
  | .w4 => 2

/-- The `rd` that names a 16-bit register (30_encoding.md R58). -/
def encodeU16Reg : U16Reg → BitVec 2
  | .duration => 0
  | .seqControl => 1
  | .crc => 2

/-- The `ra` that names an address register (30_encoding.md R58). -/
def encodeAddrReg : AddrReg → BitVec 2
  | .addr1 => 0
  | .addr2 => 1
  | .addr3 => 2
  | .addr4 => 3

/-- The command byte of an operation, from the opcode map (30_encoding.md R57). -/
def encode : Instr → Byte
  | .rdbits w => commandByte 0x1 (encodeWidth w)
  | .rdfc => commandByte 0x2 0
  | .rdu16 rd => commandByte 0x3 (encodeU16Reg rd)
  | .rdaddr ra => commandByte 0x4 (encodeAddrReg ra)
  | .span => commandByte 0x5 0
  | .parse => commandByte 0x6 0
  | .setfc => commandByte 0x8 0
  | .setaddrs => commandByte 0x9 0
  | .setdur => commandByte 0xA 0
  | .setseq => commandByte 0xA 1
  | .setcrc => commandByte 0xA 2

/-! The host's register table (10_state.md R27). -/

/-- The index of a register. -/
def HostReg.index : HostReg → Nat
  | .cmd => 0x00
  | .status => 0x01
  | .errOff => 0x02
  | .len => 0x03
  | .cur => 0x04
  | .bitval => 0x05
  | .payOff => 0x06
  | .payLen => 0x07
  | .fc => 0x08
  | .duration => 0x09
  | .addr .addr1 => 0x0A
  | .addr .addr2 => 0x0B
  | .addr .addr3 => 0x0C
  | .addr .addr4 => 0x0D
  | .seqControl => 0x0E
  | .crc => 0x0F
  | .payload => 0x10
  | .argFc => 0x18
  | .argU16 => 0x19
  | .argAddr .addr1 => 0x1A
  | .argAddr .addr2 => 0x1B
  | .argAddr .addr3 => 0x1C
  | .argAddr .addr4 => 0x1D

/-- The register at an index; none at the reserved indices 0x11 to 0x17, 0x1E, 0x1F and outside the table. -/
def hostRegAt : Nat → Option HostReg
  | 0x00 => some .cmd
  | 0x01 => some .status
  | 0x02 => some .errOff
  | 0x03 => some .len
  | 0x04 => some .cur
  | 0x05 => some .bitval
  | 0x06 => some .payOff
  | 0x07 => some .payLen
  | 0x08 => some .fc
  | 0x09 => some .duration
  | 0x0A => some (.addr .addr1)
  | 0x0B => some (.addr .addr2)
  | 0x0C => some (.addr .addr3)
  | 0x0D => some (.addr .addr4)
  | 0x0E => some .seqControl
  | 0x0F => some .crc
  | 0x10 => some .payload
  | 0x18 => some .argFc
  | 0x19 => some .argU16
  | 0x1A => some (.argAddr .addr1)
  | 0x1B => some (.argAddr .addr2)
  | 0x1C => some (.argAddr .addr3)
  | 0x1D => some (.argAddr .addr4)
  | _ => none

/-- The width of a register in bits. -/
def HostReg.width (cap : Nat) : HostReg → Nat
  | .cmd => 8
  | .status => 16
  | .errOff => Config.curWidth cap
  | .len => Config.addrWidth cap
  | .cur => Config.curWidth cap
  | .bitval => 4
  | .payOff => Config.addrWidth cap
  | .payLen => Config.addrWidth cap
  | .fc => 16
  | .duration => 16
  | .addr _ => 48
  | .seqControl => 16
  | .crc => 16
  | .payload => 1
  | .argFc => 16
  | .argU16 => 16
  | .argAddr _ => 48

/-- Whether the host may write a register. -/
def HostReg.writable : HostReg → Bool
  | .cmd | .len | .cur | .argFc | .argU16 | .argAddr _ => true
  | .status | .errOff | .bitval | .payOff | .payLen | .fc | .duration | .addr _ | .seqControl | .crc
  | .payload => false

/-- Whether the host may read a register: every one but `CMD`. -/
def HostReg.readable : HostReg → Bool
  | .cmd => false
  | .status | .errOff | .len | .cur | .bitval | .payOff | .payLen | .fc | .duration | .addr _ | .seqControl | .crc
  | .payload | .argFc | .argU16 | .argAddr _ => true

end Sys2Proof
end

