-- ==== Sys2Proof/Machine/State.lean ====
section
/-! DEFINITION. The state of the machine as plain data (10_state.md), its reset (10_state.md R34), and the names of the
ways a step can stop. -/

namespace Sys2Proof.Machine

/-- `FC`: the eleven fields of the source's `FrameControl` (10_state.md R19). -/
structure FrameControl where
  version : BitVec 2
  ftype : BitVec 2
  subtype : BitVec 4
  toDs : BitVec 1
  fromDs : BitVec 1
  moreFragments : BitVec 1
  retry : BitVec 1
  powerMgmt : BitVec 1
  moreData : BitVec 1
  wep : BitVec 1
  order : BitVec 1
deriving DecidableEq, Repr

/-- An address: six bytes, `b0` the one that came first in the buffer (10_state.md R21). -/
structure Address where
  b0 : Byte
  b1 : Byte
  b2 : Byte
  b3 : Byte
  b4 : Byte
  b5 : Byte
deriving DecidableEq, Repr

/-- `PAYLOAD`: the one variant "uninterpreted region" (10_state.md R22, 93_implementation_defined.md U4). -/
inductive Payload where
  | uninterp
deriving DecidableEq, Repr

/-- The four conditions with which an operation fails (60_exceptions.md R102). -/
inductive Condition where
  | insufficientData | truncatedFrame | illegalCommand | misalignedCursor
deriving DecidableEq, Repr

/-- `STATUS.CODE`: exactly the codes that are produced (60_exceptions.md R103, 93_implementation_defined.md U12). -/
inductive Code where
  | none | insufficientData | truncatedFrame | illegalCommand | misalignedCursor
deriving DecidableEq, Repr

/-- `STATUS.STAGE`: exactly the stages that are produced (60_exceptions.md R104, 93_implementation_defined.md U12). -/
inductive Stage where
  | none | fc | duration | addr1 | addr2 | addr3 | addr4 | seqControl | payload | crc | bits | cmd
deriving DecidableEq, Repr

/-- The stored fields of `STATUS` (10_state.md R25); `REC_VALID` and `SPAN_VALID` are computed when it is read. -/
structure Status where
  done : Bool
  err : Bool
  code : Code
  stage : Stage
deriving DecidableEq, Repr

/-- What a `raise` in the spec's pseudocode carries: condition, stage, bit offset (00_scope.md R10, 60_exceptions.md
R108). -/
structure Failure where
  cond : Condition
  stage : Stage
  off : Nat
deriving DecidableEq, Repr

/-- A destination register of an operation (60_exceptions.md R108). -/
inductive Dest where
  | bitval | fc
  | u16 (rd : U16Reg)
  | addr (ra : AddrReg)
  | payOff | payLen
deriving DecidableEq, Repr

/-- A byte-granular field found in the buffer: its first byte offset, and the bit cursor after it. -/
structure Field where
  off : Nat
  next : Nat
deriving DecidableEq, Repr

/-- A payload span found in the buffer: its first byte offset, its length, and the bit cursor after it
(43_assembler.md R83). -/
structure Span where
  off : Nat
  length : Nat
  next : Nat
deriving DecidableEq, Repr

/-- Where the nine stages of `PARSE` find their fields (43_assembler.md R87): byte offsets, the span, and the cursor
at the end. -/
structure Layout where
  fc : Nat
  duration : Nat
  addr1 : Nat
  addr2 : Nat
  addr3 : Nat
  addr4 : Nat
  seqControl : Nat
  payOff : Nat
  payLen : Nat
  crc : Nat
  next : Nat
deriving DecidableEq, Repr

/-- Reasons a step stops with a fault. -/
inductive Fault where
  /-- A buffer byte below `LEN` that holds `none` was read: by the engine in `RDBITS`, `RDFC`, `RDU16`, `RDADDR` or
  `PARSE`, or by the host through the window (20_memory.md R36, 93_implementation_defined.md U6). Safe. -/
  | byteHoldsNone (a : Nat)
  /-- `MemRead` at or above `LEN`, where it is not defined (20_memory.md R36). Raised by `memRead` alone; every
  operation tests before it reads, so no instruction reaches it. Safe. -/
  | beyondFrame (a : Nat)
  /-- The host read a register that holds `none`, where the spec says that the model faults or refuses and gives never a
  value (00_scope.md R11, 70_reset_and_hazards.md R127, 92_eei_decisions.md D6, 93_implementation_defined.md U6). Raised by
  `readRegister` alone, by no instruction. Safe. -/
  | registerHoldsNone (r : HostReg)
deriving DecidableEq, Repr

/-- Reasons a step is refused. -/
inductive Refusal where
  /-- Raised by a dispatch arm whose instruction has no meaning yet; no arm is left so. Safe. -/
  | notModelled (mnemonic : String)
  /-- A host access to a reserved index or outside the table (10_state.md R27, U9). Safe. -/
  | reservedIndex (index : Nat)
  /-- A host write to a read-only register (10_state.md R27, U9). Safe. -/
  | readOnlyRegister (r : HostReg)
  /-- A host read of `CMD` (10_state.md R27, U9). Safe. -/
  | writeOnlyRegister (r : HostReg)
  /-- A host write of a value above `CAP` to `LEN` (10_state.md R16, U9). Safe. -/
  | lenAboveCap (value : Nat)
  /-- A host write of a value that the register's width cannot hold: no such write exists (10_state.md R27; log 9).
  Safe. -/
  | valueTooWide (r : HostReg) (value : Nat)
  /-- A host access to the buffer window at or above `CAP` (10_state.md R27; log 9). Safe. -/
  | outsideWindow (a : Nat)
deriving DecidableEq, Repr

/-- The state. An `Option` register that is `none` holds no value, which is the spec's own state of it (00_scope.md
R11, log 1). Offsets and counts are naturals (00_scope.md R10); `State.Inv` (Safety.lean) keeps them in their
registers' widths. -/
structure State where
  /-- `CAP`, the parameter the model takes as an argument (00_scope.md R9, log 2): no step changes it. -/
  cap : Nat
  /-- `BUF` (10_state.md R15): sorted cells; an unlisted offset holds `none`. -/
  buf : List Host.Cell
  /-- `LEN` (10_state.md R16). -/
  len : Nat
  /-- `CUR` (10_state.md R17). -/
  cur : Nat
  /-- `FC` (10_state.md R19). -/
  fc : Option FrameControl
  /-- `DURATION` (10_state.md R20). -/
  duration : Option Word
  /-- `ADDR1` (10_state.md R21). -/
  addr1 : Option Address
  /-- `ADDR2` (10_state.md R21). -/
  addr2 : Option Address
  /-- `ADDR3` (10_state.md R21). -/
  addr3 : Option Address
  /-- `ADDR4` (10_state.md R21). -/
  addr4 : Option Address
  /-- `SEQ_CONTROL` (10_state.md R20). -/
  seqControl : Option Word
  /-- `PAYLOAD` (10_state.md R22): hardwired. -/
  payload : Payload
  /-- `CRC` (10_state.md R20). -/
  crc : Option Word
  /-- `PAY_OFF` (10_state.md R23). -/
  payOff : Option Nat
  /-- `PAY_LEN` (10_state.md R23). -/
  payLen : Option Nat
  /-- `BITVAL` (10_state.md R24). -/
  bitval : Option (BitVec 4)
  /-- `STATUS` (10_state.md R25). -/
  status : Status
  /-- `ERR_OFF` (10_state.md R26). -/
  errOff : Nat
  /-- `ARG_FC` (10_state.md R29): packed as `FC`. -/
  argFc : Option Word
  /-- `ARG_U16` (10_state.md R29). -/
  argU16 : Option Word
  /-- `ARG_ADDR1` (10_state.md R29). -/
  argAddr1 : Option Address
  /-- `ARG_ADDR2` (10_state.md R29). -/
  argAddr2 : Option Address
  /-- `ARG_ADDR3` (10_state.md R29). -/
  argAddr3 : Option Address
  /-- `ARG_ADDR4` (10_state.md R29). -/
  argAddr4 : Option Address
  /-- The model's own: what the host and the platform send next, oldest first (log 4). -/
  inputs : List Input
  /-- The model's own: what the last served read gave the host (log 5). -/
  reply : Option Nat
  /-- The model's own: how many free values have been drawn (log 8). -/
  draws : Nat
deriving DecidableEq, Repr

/-- The state after reset of a block of capacity `cap` (10_state.md R34). -/
def State.resetFor (cap : Nat) : State where
  cap := cap
  buf := []
  len := 0
  cur := 0
  fc := none
  duration := none
  addr1 := none
  addr2 := none
  addr3 := none
  addr4 := none
  seqControl := none
  payload := .uninterp
  crc := none
  payOff := none
  payLen := none
  bitval := none
  status := ⟨false, false, .none, .none⟩
  errOff := 0
  argFc := none
  argU16 := none
  argAddr1 := none
  argAddr2 := none
  argAddr3 := none
  argAddr4 := none
  inputs := []
  reply := none
  draws := 0

/-- The machine right after reset, with the capacity 00_scope.md R9 suggests (log 3). -/
def State.reset : State := State.resetFor Config.cap

end Sys2Proof.Machine
end

