-- ==== Sys2Proof/Machine/Ops.lean ====
section
/-! DEFINITION. The named operations: the buffer as canonical memory, `MemRead`, setting registers by name, failing and
succeeding (60_exceptions.md R108), and the one shape every reading operation has. -/

namespace Sys2Proof.Machine

/-- The buffer as memory: cells of offset and byte. -/
abbrev Memory := List Host.Cell

/-- The byte at an offset; none at an offset nothing has written (10_state.md R34). -/
def Memory.get : Memory → Nat → Option Byte
  | [], _ => none
  | (k, v) :: m, a => if a = k then some v else Memory.get m a

/-- Write a byte at an offset, keeping the cells sorted. -/
def Memory.set : Memory → Nat → Byte → Memory
  | [], a, b => [(a, b)]
  | (k, v) :: m, a, b =>
    if a < k then (a, b) :: (k, v) :: m
    else if a = k then (a, b) :: m
    else (k, v) :: Memory.set m a b

/-- The canonical form: offsets strictly rising. An unlisted offset holds `none`, which no entry can hold, so there is
nothing more to ask. -/
abbrev Memory.wf (m : Memory) : Prop := m.Pairwise (fun x y => x.1 < y.1)

/-- `avail_bits(c)` of a buffer of `len` bytes, with its guard (00_scope.md R12). -/
def availBits (len c : Nat) : Nat := if 8 * len ≥ c then 8 * len - c else 0

/-- `avail_bytes(c)` (00_scope.md R12). -/
def availBytes (len c : Nat) : Nat := availBits len c / 8

/-- `byte_off(c) = c >> 3` (00_scope.md R10). -/
def byteOff (c : Nat) : Nat := c / 8

/-- `bit_in_byte(c) = c & 7` (00_scope.md R10). -/
def bitInByte (c : Nat) : Nat := c % 8

/-- `MemRead(a, 1)`: defined only for `a < LEN`; a byte that holds `none` has no defined result (20_memory.md R36). -/
def memRead (s : State) (a : Nat) : Except Fault Byte :=
  if a < s.len then
    match Memory.get s.buf a with
    | some b => .ok b
    | none => .error (.byteHoldsNone a)
  else .error (.beyondFrame a)

/-- Put a value, or `none`, into a 16-bit record register. -/
def setU16 (rd : U16Reg) (v : Option Word) (s : State) : State :=
  match rd with
  | .duration => { s with duration := v }
  | .seqControl => { s with seqControl := v }
  | .crc => { s with crc := v }

/-- Put a value, or `none`, into an address register. -/
def setAddr (ra : AddrReg) (v : Option Address) (s : State) : State :=
  match ra with
  | .addr1 => { s with addr1 := v }
  | .addr2 => { s with addr2 := v }
  | .addr3 => { s with addr3 := v }
  | .addr4 => { s with addr4 := v }

/-- The contents of a 16-bit record register. -/
def getU16 (rd : U16Reg) (s : State) : Option Word :=
  match rd with
  | .duration => s.duration
  | .seqControl => s.seqControl
  | .crc => s.crc

/-- The contents of an address register. -/
def getAddr (ra : AddrReg) (s : State) : Option Address :=
  match ra with
  | .addr1 => s.addr1
  | .addr2 => s.addr2
  | .addr3 => s.addr3
  | .addr4 => s.addr4

/-- `<destination> <- none` (60_exceptions.md R108). -/
def clearDest (s : State) (d : Dest) : State :=
  match d with
  | .bitval => { s with bitval := none }
  | .fc => { s with fc := none }
  | .u16 rd => setU16 rd none s
  | .addr ra => setAddr ra none s
  | .payOff => { s with payOff := none }
  | .payLen => { s with payLen := none }

/-- Every listed destination `<- none`. -/
def clearDests (ds : List Dest) (s : State) : State := ds.foldl clearDest s

/-- The code of a condition (60_exceptions.md R103). -/
def Condition.code : Condition → Code
  | .insufficientData => .insufficientData
  | .truncatedFrame => .truncatedFrame
  | .illegalCommand => .illegalCommand
  | .misalignedCursor => .misalignedCursor

/-- `raise <Condition>(stage, off)` (60_exceptions.md R108): the destinations `<- none`, `STATUS` and `ERR_OFF` tell of
the failure, nothing else changes, `CUR` included. -/
def raise (ds : List Dest) (f : Failure) (s : State) : State :=
  { clearDests ds s with status := ⟨true, true, f.cond.code, f.stage⟩, errOff := f.off }

/-- `STATUS <- success` (60_exceptions.md R108). -/
def succeed (s : State) : State :=
  { s with status := ⟨true, false, .none, .none⟩, errOff := 0 }

/-- A reserved command byte (60_exceptions.md R107): no destination, stage `CMD`, offset 0. -/
def illegalCommand (s : State) : State := raise [] ⟨.illegalCommand, .cmd, 0⟩ s

/-- The shape of every reading operation: the tests come first and a test that fires is raised (60_exceptions.md
R111); then the bytes are read, and a byte without a value stops the machine (20_memory.md R36); then the result is
committed in one step. -/
def finish {α : Type} (ds : List Dest) (s : State) (tested : Except Failure α) (commit : α → Except Fault State) :
    Host.Outcome State Fault Refusal :=
  match tested with
  | .error f => .next (raise ds f s)
  | .ok a =>
    match commit a with
    | .error e => .fault e
    | .ok t => .next (succeed t)

/-- The destination registers of an operation that can fail (60_exceptions.md R108). The replace operations cannot
fail (44_record_replace.md R94). -/
def destinations : Instr → List Dest
  | .rdbits _ => [.bitval]
  | .rdfc => [.fc]
  | .rdu16 rd => [.u16 rd]
  | .rdaddr ra => [.addr ra]
  | .span => [.payOff, .payLen]
  | .parse => [.fc, .u16 .duration, .addr .addr1, .addr .addr2, .addr .addr3, .addr .addr4, .u16 .seqControl, .u16 .crc,
      .payOff, .payLen]
  | .setfc => []
  | .setaddrs => []
  | .setdur => []
  | .setseq => []
  | .setcrc => []

end Sys2Proof.Machine
end

