-- ==== Sys2Proof/Machine/Operands.lean ====
section
/-! DEFINITION. The operand forms: the tests that find a field at a cursor, the reads of bits, 16-bit integers and
addresses, and the packings of `FC` and of an address (10_state.md R19, R21). -/

namespace Sys2Proof.Machine

/-- The number of bits a width asks for (30_encoding.md R58). -/
def widthBits : Width → Nat
  | .w1 => 1
  | .w2 => 2
  | .w4 => 4

/-- `stage(rd)`: the stage of the same name (42_fixed_width.md R76). -/
def u16Stage : U16Reg → Stage
  | .duration => .duration
  | .seqControl => .seqControl
  | .crc => .crc

/-- `stage(ra)`: the stage of the same name (42_fixed_width.md R78). -/
def addrStage : AddrReg → Stage
  | .addr1 => .addr1
  | .addr2 => .addr2
  | .addr3 => .addr3
  | .addr4 => .addr4

/-- The three slices of frame-control byte 0 and the eight of byte 1, in the one 16-bit image `b0 ++ b1`
(10_state.md R19, 30_encoding.md R50, R51; log 11). `RDFC`, `PARSE` and `SETFC` all unpack with this definition. -/
def fcOfWord (w : Word) : FrameControl where
  version := w.extractLsb' 14 2
  ftype := w.extractLsb' 12 2
  subtype := w.extractLsb' 8 4
  toDs := w.extractLsb' 7 1
  fromDs := w.extractLsb' 6 1
  moreFragments := w.extractLsb' 5 1
  retry := w.extractLsb' 4 1
  powerMgmt := w.extractLsb' 3 1
  moreData := w.extractLsb' 2 1
  wep := w.extractLsb' 1 1
  order := w.extractLsb' 0 1

/-- The 16-bit image of `FC` (10_state.md R19). -/
def wordOfFc (f : FrameControl) : Word :=
  f.version ++ f.ftype ++ f.subtype ++ f.toDs ++ f.fromDs ++ f.moreFragments ++ f.retry ++ f.powerMgmt ++ f.moreData
    ++ f.wep ++ f.order

/-- The 48-bit image of an address, first byte most significant (10_state.md R21). -/
def imageOfAddr (x : Address) : BitVec 48 := x.b0 ++ x.b1 ++ x.b2 ++ x.b3 ++ x.b4 ++ x.b5

/-- The address with a 48-bit image (10_state.md R21). -/
def addrOfImage (v : BitVec 48) : Address where
  b0 := v.extractLsb' 40 8
  b1 := v.extractLsb' 32 8
  b2 := v.extractLsb' 24 8
  b3 := v.extractLsb' 16 8
  b4 := v.extractLsb' 8 8
  b5 := v.extractLsb' 0 8

/-- The test of `RDBITS w` (40_bitfield_reader.md R65): on bits, at any cursor. -/
def testBits (len c w : Nat) : Except Failure Unit :=
  if availBits len c < w then .error ⟨.insufficientData, .bits, c⟩ else .ok ()

/-- The tests of a byte-granular read of `n` bytes for `stage` at cursor `c`, alignment before data (60_exceptions.md
R111), and where the field lies. -/
def takeField (len c n : Nat) (stage : Stage) : Except Failure Field :=
  if bitInByte c ≠ 0 then .error ⟨.misalignedCursor, stage, c⟩
  else if availBytes len c < n then .error ⟨.insufficientData, stage, c⟩
  else .ok ⟨byteOff c, c + 8 * n⟩

/-- The tests of the span step at cursor `c` and the span it finds: all that remains but the trailer (43_assembler.md
R83, R84). -/
def takeSpan (len c : Nat) : Except Failure Span :=
  if bitInByte c ≠ 0 then .error ⟨.misalignedCursor, .payload, c⟩
  else if availBytes len c < Config.trailerBytes then .error ⟨.truncatedFrame, .payload, c⟩
  else
    .ok ⟨byteOff c, availBytes len c - Config.trailerBytes, c + 8 * (availBytes len c - Config.trailerBytes)⟩

/-- The nine stages of `PARSE` on the private cursor, from bit 0, each with its tests; the first that fires is the
failure (43_assembler.md R87, R89). The tests depend on `LEN` alone and all precede the first read (20_memory.md R36;
log 12). -/
def locateFrame (len : Nat) : Except Failure Layout := do
  let fc ← takeField len 0 Config.fcBytes .fc
  let du ← takeField len fc.next Config.u16Bytes .duration
  let a1 ← takeField len du.next Config.addrBytes .addr1
  let a2 ← takeField len a1.next Config.addrBytes .addr2
  let a3 ← takeField len a2.next Config.addrBytes .addr3
  let a4 ← takeField len a3.next Config.addrBytes .addr4
  let sq ← takeField len a4.next Config.u16Bytes .seqControl
  let sp ← takeSpan len sq.next
  let cr ← takeField len sp.next Config.u16Bytes .crc
  .ok ⟨fc.off, du.off, a1.off, a2.off, a3.off, a4.off, sq.off, sp.off, sp.length, cr.off, cr.next⟩

/-- `stream_bit(p)`: bit `7 - (p & 7)` of byte `p >> 3` (00_scope.md R12, 20_memory.md R38). -/
def streamBit (s : State) (p : Nat) : Except Fault Bool := do
  let b ← memRead s (byteOff p)
  .ok (b.getLsbD (7 - bitInByte p))

/-- The first `w` bits from cursor `c` as a number, the bit read first the most significant: the loop of
40_bitfield_reader.md R65. -/
def readBits (s : State) (c : Nat) : Nat → Except Fault Nat
  | 0 => .ok 0
  | k + 1 => do
    let v ← readBits s c k
    let b ← streamBit s (c + k)
    .ok (2 * v + b.toNat)

/-- The big-endian 16-bit integer at byte offset `a`: `MemRead(a,1) ++ MemRead(a+1,1)` (20_memory.md R37). -/
def readU16 (s : State) (a : Nat) : Except Fault Word := do
  let hi ← memRead s a
  let lo ← memRead s (a + 1)
  .ok (hi ++ lo)

/-- The six bytes at byte offset `a`, in raw order (20_memory.md R39). -/
def readAddr (s : State) (a : Nat) : Except Fault Address := do
  let b0 ← memRead s a
  let b1 ← memRead s (a + 1)
  let b2 ← memRead s (a + 2)
  let b3 ← memRead s (a + 3)
  let b4 ← memRead s (a + 4)
  let b5 ← memRead s (a + 5)
  .ok ⟨b0, b1, b2, b3, b4, b5⟩

end Sys2Proof.Machine
end

