-- ==== Sys2Proof/Machine/Assembler.lean ====
section
/-! DEFINITION. The Frame Assembler: `SPAN` and `PARSE` (43_assembler.md). -/

namespace Sys2Proof.Machine

/-- `SPAN` (43_assembler.md R83 to R86): reads `LEN` and `CUR`, no byte of `BUF`. -/
def execSpan (s : State) : Host.Outcome State Fault Refusal :=
  finish (destinations .span) s (takeSpan s.len s.cur) fun p =>
    .ok { s with payOff := some p.off, payLen := some p.length, cur := p.next }

/-- The fields of a frame read in stage order, and the commit of all of them in one step (43_assembler.md R87). -/
def commitFrame (s : State) (l : Layout) : Except Fault State := do
  let fc ← readU16 s l.fc
  let du ← readU16 s l.duration
  let a1 ← readAddr s l.addr1
  let a2 ← readAddr s l.addr2
  let a3 ← readAddr s l.addr3
  let a4 ← readAddr s l.addr4
  let sq ← readU16 s l.seqControl
  let cr ← readU16 s l.crc
  .ok { s with
    fc := some (fcOfWord fc)
    duration := some du
    addr1 := some a1
    addr2 := some a2
    addr3 := some a3
    addr4 := some a4
    seqControl := some sq
    crc := some cr
    payOff := some l.payOff
    payLen := some l.payLen
    cur := l.next }

/-- `PARSE` (43_assembler.md R87 to R93): starts at bit 0 whatever `CUR` is; all or nothing. -/
def execParse (s : State) : Host.Outcome State Fault Refusal :=
  finish (destinations .parse) s (locateFrame s.len) (commitFrame s)

end Sys2Proof.Machine
end

