-- ==== Sys2Proof/Machine/BitField.lean ====
section
/-! DEFINITION. The Bit-Field Reader: `RDBITS` (40_bitfield_reader.md). -/

namespace Sys2Proof.Machine

/-- `RDBITS w` (40_bitfield_reader.md R65 to R70): `BITVAL` is zero-extended from the width, `CUR` moves by `w` bits. -/
def execRdbits (w : Width) (s : State) : Host.Outcome State Fault Refusal :=
  finish (destinations (.rdbits w)) s (testBits s.len s.cur (widthBits w)) fun _ => do
    let v ← readBits s s.cur (widthBits w)
    .ok { s with bitval := some (BitVec.ofNat 4 v), cur := s.cur + widthBits w }

end Sys2Proof.Machine
end

