-- ==== Sys2Proof/Machine/FixedWidth.lean ====
section
/-! DEFINITION. The Fixed-Width Field Reader: `RDU16` and `RDADDR` (42_fixed_width.md). -/

namespace Sys2Proof.Machine

/-- `RDU16 rd` (42_fixed_width.md R76, R77, R80 to R82). -/
def execRdu16 (rd : U16Reg) (s : State) : Host.Outcome State Fault Refusal :=
  finish (destinations (.rdu16 rd)) s (takeField s.len s.cur Config.u16Bytes (u16Stage rd)) fun f => do
    let v ← readU16 s f.off
    .ok { setU16 rd (some v) s with cur := f.next }

/-- `RDADDR ra` (42_fixed_width.md R78 to R82). -/
def execRdaddr (ra : AddrReg) (s : State) : Host.Outcome State Fault Refusal :=
  finish (destinations (.rdaddr ra)) s (takeField s.len s.cur Config.addrBytes (addrStage ra)) fun f => do
    let x ← readAddr s f.off
    .ok { setAddr ra (some x) s with cur := f.next }

end Sys2Proof.Machine
end

