-- ==== Sys2Proof/Machine/FrameControl.lean ====
section
/-! DEFINITION. The Frame-Control Decoder: `RDFC` (41_frame_control.md). -/

namespace Sys2Proof.Machine

/-- `RDFC` (41_frame_control.md R71 to R75): `FC <- b0 ++ b1`, all eleven fields at once. -/
def execRdfc (s : State) : Host.Outcome State Fault Refusal :=
  finish (destinations .rdfc) s (takeField s.len s.cur Config.fcBytes .fc) fun f => do
    let w ← readU16 s f.off
    .ok { s with fc := some (fcOfWord w), cur := f.next }

end Sys2Proof.Machine
end

