-- ==== Sys2Proof/Machine/Record.lean ====
section
/-! DEFINITION. The Frame Record's replace operations (44_record_replace.md). A copy moves the operand register's state
as it is, value or `none`, and never fails (R94). -/

namespace Sys2Proof.Machine

/-- `SETFC` (44_record_replace.md R95). -/
def execSetfc (s : State) : Host.Outcome State Fault Refusal :=
  .next (succeed { s with fc := s.argFc.map fcOfWord })

/-- `SETADDRS` (44_record_replace.md R96): the four copies in one step. -/
def execSetaddrs (s : State) : Host.Outcome State Fault Refusal :=
  .next (succeed { s with addr1 := s.argAddr1, addr2 := s.argAddr2, addr3 := s.argAddr3, addr4 := s.argAddr4 })

/-- `SETDUR` (44_record_replace.md R97). -/
def execSetdur (s : State) : Host.Outcome State Fault Refusal :=
  .next (succeed (setU16 .duration s.argU16 s))

/-- `SETSEQ` (44_record_replace.md R98). -/
def execSetseq (s : State) : Host.Outcome State Fault Refusal :=
  .next (succeed (setU16 .seqControl s.argU16 s))

/-- `SETCRC` (44_record_replace.md R99): stored as given, checked against nothing. -/
def execSetcrc (s : State) : Host.Outcome State Fault Refusal :=
  .next (succeed (setU16 .crc s.argU16 s))

end Sys2Proof.Machine
end

