-- ==== Sys2Proof/Machine/Dispatch.lean ====
section
/-! DEFINITION. The dispatch of an instruction to its meaning, one arm per row of the opcode table. -/

namespace Sys2Proof.Machine

def exec (i : Instr) (s : State) : Host.Outcome State Fault Refusal :=
  match i with
  | .rdbits w => Sys2Proof.Machine.execRdbits w s
  | .rdfc => Sys2Proof.Machine.execRdfc s
  | .rdu16 rd => Sys2Proof.Machine.execRdu16 rd s
  | .rdaddr ra => Sys2Proof.Machine.execRdaddr ra s
  | .span => Sys2Proof.Machine.execSpan s
  | .parse => Sys2Proof.Machine.execParse s
  | .setfc => Sys2Proof.Machine.execSetfc s
  | .setaddrs => Sys2Proof.Machine.execSetaddrs s
  | .setdur => Sys2Proof.Machine.execSetdur s
  | .setseq => Sys2Proof.Machine.execSetseq s
  | .setcrc => Sys2Proof.Machine.execSetcrc s

end Sys2Proof.Machine
end

