-- ==== Sys2Proof/Machine/Flags.lean ====
section
/-! DEFINITION. The block has no condition codes (10_state.md R31). What it has of flags is `STATUS`: the two validity
bits, the numbers of codes and stages, and the 16-bit image (10_state.md R25, 60_exceptions.md R103, R104). -/

namespace Sys2Proof.Machine

/-- The number of a condition code (60_exceptions.md R103). -/
def codeNumber : Code → BitVec 4
  | .none => 0
  | .insufficientData => 1
  | .truncatedFrame => 2
  | .illegalCommand => 3
  | .misalignedCursor => 4

/-- The number of a stage (60_exceptions.md R104). -/
def stageNumber : Stage → BitVec 4
  | .none => 0
  | .fc => 1
  | .duration => 2
  | .addr1 => 3
  | .addr2 => 4
  | .addr3 => 5
  | .addr4 => 6
  | .seqControl => 7
  | .payload => 8
  | .crc => 9
  | .bits => 10
  | .cmd => 11

/-- `STATUS.REC_VALID`: no record register holds `none` (10_state.md R25). -/
def recValid (s : State) : Bool :=
  s.fc.isSome && s.duration.isSome && s.addr1.isSome && s.addr2.isSome && s.addr3.isSome && s.addr4.isSome
    && s.seqControl.isSome && s.crc.isSome

/-- `STATUS.SPAN_VALID`: neither span register holds `none` (10_state.md R25). -/
def spanValid (s : State) : Bool := s.payOff.isSome && s.payLen.isSome

/-- `STATUS` as the host reads it: reserved 15:14, `SPAN_VALID` 13, `REC_VALID` 12, `STAGE` 11:8, `CODE` 7:4, reserved
3:2, `ERR` 1, `DONE` 0 (10_state.md R25). -/
def statusImage (s : State) : Word :=
  0#2 ++ BitVec.ofBool (spanValid s) ++ BitVec.ofBool (recValid s) ++ stageNumber s.status.stage
    ++ codeNumber s.status.code ++ 0#2 ++ BitVec.ofBool s.status.err ++ BitVec.ofBool s.status.done

end Sys2Proof.Machine
end

