-- ==== Sys2Proof/Machine/HostPort.lean ====
section
/-! DEFINITION. The host's side: what a write to `CMD` starts, the register table's reads and writes, the buffer
window, and the platform's reset (10_state.md R27, R28; 70_reset_and_hazards.md R120, R131). -/

namespace Sys2Proof.Machine

/-- A byte written to `CMD` runs the operation it encodes, to completion (10_state.md R28); a reserved byte fails with
`ILLEGAL_COMMAND` (60_exceptions.md R107). -/
def runCommand (b : Byte) (s : State) : Host.Outcome State Fault Refusal :=
  match decode b with
  | .ok i => exec i s
  | .error _ => .next (illegalCommand s)

/-- A register as the host reads it, as a number; none where it holds `none` (30_encoding.md R61). `CMD` keeps nothing
(10_state.md R28). -/
def regImage (s : State) : HostReg → Option Nat
  | .cmd => none
  | .status => some (statusImage s).toNat
  | .errOff => some s.errOff
  | .len => some s.len
  | .cur => some s.cur
  | .bitval => s.bitval.map BitVec.toNat
  | .payOff => s.payOff
  | .payLen => s.payLen
  | .fc => s.fc.map fun f => (wordOfFc f).toNat
  | .duration => s.duration.map BitVec.toNat
  | .addr ra => (getAddr ra s).map fun x => (imageOfAddr x).toNat
  | .seqControl => s.seqControl.map BitVec.toNat
  | .crc => s.crc.map BitVec.toNat
  | .payload => match s.payload with | .uninterp => some 0
  | .argFc => s.argFc.map BitVec.toNat
  | .argU16 => s.argU16.map BitVec.toNat
  | .argAddr .addr1 => s.argAddr1.map fun x => (imageOfAddr x).toNat
  | .argAddr .addr2 => s.argAddr2.map fun x => (imageOfAddr x).toNat
  | .argAddr .addr3 => s.argAddr3.map fun x => (imageOfAddr x).toNat
  | .argAddr .addr4 => s.argAddr4.map fun x => (imageOfAddr x).toNat

/-- Put a value into an address operand register (10_state.md R29). -/
def setArgAddr (ra : AddrReg) (x : Address) (s : State) : State :=
  match ra with
  | .addr1 => { s with argAddr1 := some x }
  | .addr2 => { s with argAddr2 := some x }
  | .addr3 => { s with argAddr3 := some x }
  | .addr4 => { s with argAddr4 := some x }

/-- A host write of a value to a register it may write, if the width can hold the value. -/
def writeIfFits (r : HostReg) (value : Nat) (s : State) (k : Host.Outcome State Fault Refusal) :
    Host.Outcome State Fault Refusal :=
  if value < 2 ^ r.width s.cap then k else .refused (.valueTooWide r value)

/-- A host write to a register (10_state.md R27): `CMD` executes, `LEN`, `CUR` and the operand registers take the value,
the others are read only. -/
def writeRegister (r : HostReg) (value : Nat) (s : State) : Host.Outcome State Fault Refusal :=
  match r with
  | .cmd => writeIfFits .cmd value s (runCommand (BitVec.ofNat 8 value) s)
  | .len => if value ≤ s.cap then .next { s with len := value } else .refused (.lenAboveCap value)
  | .cur => writeIfFits .cur value s (.next { s with cur := value })
  | .argFc => writeIfFits .argFc value s (.next { s with argFc := some (BitVec.ofNat 16 value) })
  | .argU16 => writeIfFits .argU16 value s (.next { s with argU16 := some (BitVec.ofNat 16 value) })
  | .argAddr ra =>
    writeIfFits (.argAddr ra) value s (.next (setArgAddr ra (addrOfImage (BitVec.ofNat 48 value)) s))
  | .status => .refused (.readOnlyRegister .status)
  | .errOff => .refused (.readOnlyRegister .errOff)
  | .bitval => .refused (.readOnlyRegister .bitval)
  | .payOff => .refused (.readOnlyRegister .payOff)
  | .payLen => .refused (.readOnlyRegister .payLen)
  | .fc => .refused (.readOnlyRegister .fc)
  | .duration => .refused (.readOnlyRegister .duration)
  | .addr ra => .refused (.readOnlyRegister (.addr ra))
  | .seqControl => .refused (.readOnlyRegister .seqControl)
  | .crc => .refused (.readOnlyRegister .crc)
  | .payload => .refused (.readOnlyRegister .payload)

/-- A host read of a register: the value goes to the host and the block does not change (70_reset_and_hazards.md R131);
of a register that holds `none` the spec says that the model "treats the read as a fault or refuses it" (00_scope.md R11) and
gives "never a value" (93_implementation_defined.md U6; log 6). -/
def readRegister (r : HostReg) (s : State) : Host.Outcome State Fault Refusal :=
  if r.readable then
    match regImage s r with
    | some v => .next { s with reply := some v }
    | none => .fault (.registerHoldsNone r)
  else .refused (.writeOnlyRegister r)

/-- A host write to the buffer window (10_state.md R15, R27). -/
def writeWindow (a : Nat) (b : Byte) (s : State) : Host.Outcome State Fault Refusal :=
  if a < s.cap then .next { s with buf := Memory.set s.buf a b } else .refused (.outsideWindow a)

/-- A host read of the buffer window (10_state.md R15, R27). An unwritten byte has no value below `LEN` and any value at
and above it (93_implementation_defined.md U6, U11; log 8). -/
def readWindow (a : Nat) (s : State) : Host.Outcome State Fault Refusal :=
  if a < s.cap then
    match Memory.get s.buf a with
    | some b => .next { s with reply := some b.toNat }
    | none =>
      if a < s.len then .fault (.byteHoldsNone a)
      else .next { s with reply := some (Config.freeByte s.draws).toNat, draws := s.draws + 1 }
  else .refused (.outsideWindow a)

/-- The platform's reset (70_reset_and_hazards.md R120): every piece of state of the block at 10_state.md R34's value. The
capacity, the inputs still to come and the count of draws are not the block's and stay (log 14). -/
def platformReset (s : State) : State :=
  { State.resetFor s.cap with inputs := s.inputs, draws := s.draws }

/-- One input served (20_memory.md R46: each takes effect before the next). -/
def serve (x : Input) (s : State) : Host.Outcome State Fault Refusal :=
  match x with
  | .write index value =>
    match hostRegAt index with
    | some r => writeRegister r value s
    | none => .refused (.reservedIndex index)
  | .read index =>
    match hostRegAt index with
    | some r => readRegister r s
    | none => .refused (.reservedIndex index)
  | .writeBuf a b => writeWindow a b s
  | .readBuf a => readWindow a s
  | .reset => .next (platformReset s)

/-- The input by which the host issues a command byte: a write to `CMD` (10_state.md R28). -/
def commandInput (b : Byte) : Input := .write HostReg.cmd.index b.toNat

end Sys2Proof.Machine
end

