-- ==== Sys2Proof/Machine/Step.lean ====
section
/-! DEFINITION. One step of the machine: the oldest input is served (log 4); with none pending the block is idle and
does nothing on its own (70_reset_and_hazards.md R120). -/

namespace Sys2Proof.Machine

/-- One step. -/
def step (s : State) : Host.Outcome State Fault Refusal :=
  match s.inputs with
  | [] => .next s
  | x :: rest => serve x { s with inputs := rest }

/-- The state with an instruction word as what the next step runs: the host's next access is the write of that byte to
`CMD`, which is the only way an instruction reaches the block (10_state.md R28, R30; log 4). -/
def State.withFetchWord (s : State) (nbits w : Nat) : State :=
  { s with inputs := commandInput (tableByte nbits w) :: s.inputs }

end Sys2Proof.Machine
end

