-- ==== Sys2Proof/Safety.lean ====
section
/-! DEFINITION. The terms claims are stated in: what a buffer holds, the invariant of the state, and sequences of
instructions. -/

namespace Sys2Proof.Machine

/-- The buffer byte at an offset holds a value. -/
def State.written (s : State) (a : Nat) : Bool := (Memory.get s.buf a).isSome

/-- The buffer byte at an offset, where it holds a value. -/
def State.byteAt (s : State) (a : Nat) : Byte := (Memory.get s.buf a).getD 0

/-- `n` bytes from an offset all hold values. -/
def State.writtenFrom (s : State) (a n : Nat) : Prop := ∀ j, j < n → s.written (a + j) = true

/-- The host's duty of 70_reset_and_hazards.md R131: every byte below `LEN` holds a value. -/
def State.frameWritten (s : State) : Prop := ∀ a, a < s.len → s.written a = true

/-- Bit `p` of the buffer as a stream (00_scope.md R12), where its byte holds a value. -/
def State.bitAt (s : State) (p : Nat) : Bool := (s.byteAt (p / 8)).getLsbD (7 - p % 8)

/-- The `w` bits from `p` as a number, the first the most significant (40_bitfield_reader.md R66). -/
def State.bitsAt (s : State) (p : Nat) : Nat → Nat
  | 0 => 0
  | k + 1 => 2 * s.bitsAt p k + (s.bitAt (p + k)).toNat

/-- The big-endian 16-bit number at an offset (20_memory.md R37), where its bytes hold values. -/
def State.wordAt (s : State) (a : Nat) : Word := s.byteAt a ++ s.byteAt (a + 1)

/-- The six bytes at an offset (20_memory.md R39), where they hold values. -/
def State.addrAt (s : State) (a : Nat) : Address :=
  ⟨s.byteAt a, s.byteAt (a + 1), s.byteAt (a + 2), s.byteAt (a + 3), s.byteAt (a + 4), s.byteAt (a + 5)⟩

/-- `STATUS` after success (60_exceptions.md R108). -/
def Status.success : Status := ⟨true, false, .none, .none⟩

/-- `STATUS` after a failure (60_exceptions.md R108). -/
def Status.failed (code : Code) (stage : Stage) : Status := ⟨true, true, code, stage⟩

/-- The span registers hold values together, and a span they hold leaves room for the trailer within `CAP`: no wrapped
length (43_assembler.md R84). -/
def State.spanFits (s : State) : Prop :=
  match s.payOff, s.payLen with
  | some off, some n => off + n + 2 ≤ s.cap
  | none, none => True
  | some _, none => False
  | none, some _ => False

/-- The invariant of the state: memory is canonical and lies below `CAP`, every offset and count fits its register
(00_scope.md R10), the span is no wrapped one, and the fields of `STATUS` agree (10_state.md R25, R26). -/
structure State.Inv (s : State) : Prop where
  bufSorted : Memory.wf s.buf
  bufBelowCap : ∀ c, c ∈ s.buf → c.1 < s.cap
  lenFits : s.len ≤ s.cap
  curFits : s.cur < 2 ^ Config.curWidth s.cap
  span : s.spanFits
  errOffFits : s.errOff < 2 ^ Config.curWidth s.cap
  errIffCode : s.status.err = true ↔ s.status.code ≠ .none
  codeIffStage : s.status.code = .none ↔ s.status.stage = .none
  successOffset : s.status.code = .none → s.errOff = 0
  doneIfErr : s.status.err = true → s.status.done = true

/-- Instructions one after another, stopping where one stops (20_memory.md R46: operations take effect in order). -/
def runAll : List Instr → State → Host.Outcome State Fault Refusal
  | [], s => .next s
  | i :: is, s =>
    match exec i s with
    | .next t => runAll is t
    | .fault e => .fault e
    | .refused r => .refused r

/-- Bit-field reads one after another with the values they leave in `BITVAL`; none where one of them fails or stops. -/
def runBits : List Width → State → Option (List (BitVec 4) × State)
  | [], s => some ([], s)
  | w :: ws, s =>
    match exec (.rdbits w) s with
    | .next t =>
      match t.bitval, runBits ws t with
      | some v, some (vs, u) => some (v :: vs, u)
      | _, _ => none
    | _ => none

/-- The failure `PARSE` reports for a frame of fewer than 32 bytes: the rows of the table of 43_assembler.md R89. -/
def parseFailure (len : Nat) : Failure :=
  if len < 2 then ⟨.insufficientData, .fc, 0⟩
  else if len < 4 then ⟨.insufficientData, .duration, 16⟩
  else if len < 10 then ⟨.insufficientData, .addr1, 32⟩
  else if len < 16 then ⟨.insufficientData, .addr2, 80⟩
  else if len < 22 then ⟨.insufficientData, .addr3, 128⟩
  else if len < 28 then ⟨.insufficientData, .addr4, 176⟩
  else if len < 30 then ⟨.insufficientData, .seqControl, 224⟩
  else ⟨.truncatedFrame, .payload, 240⟩

/-- What a byte-granular read of `n` bytes for `stage` reports when it is issued at bit offset `cur` of a frame of `len`
bytes, alignment before data (60_exceptions.md R103, R109, R111). -/
def fieldReport (len cur n : Nat) (stage : Stage) : Status × Nat :=
  if cur % 8 ≠ 0 then (Status.failed .misalignedCursor stage, cur)
  else if 8 * len < cur + 8 * n then (Status.failed .insufficientData stage, cur)
  else (Status.success, 0)

/-- `STATUS` and `ERR_OFF` after an instruction that goes on, by `LEN` and `CUR` before it (10_state.md R25, R26;
60_exceptions.md R103, R104, R111). -/
def commandReport (len cur : Nat) : Instr → Status × Nat
  | .rdbits w => if 8 * len < cur + widthBits w then (Status.failed .insufficientData .bits, cur) else (Status.success, 0)
  | .rdfc => fieldReport len cur 2 .fc
  | .rdu16 .duration => fieldReport len cur 2 .duration
  | .rdu16 .seqControl => fieldReport len cur 2 .seqControl
  | .rdu16 .crc => fieldReport len cur 2 .crc
  | .rdaddr .addr1 => fieldReport len cur 6 .addr1
  | .rdaddr .addr2 => fieldReport len cur 6 .addr2
  | .rdaddr .addr3 => fieldReport len cur 6 .addr3
  | .rdaddr .addr4 => fieldReport len cur 6 .addr4
  | .span =>
    if cur % 8 ≠ 0 then (Status.failed .misalignedCursor .payload, cur)
    else if 8 * len < cur + 16 then (Status.failed .truncatedFrame .payload, cur)
    else (Status.success, 0)
  | .parse =>
    if len < 32 then (Status.failed (parseFailure len).cond.code (parseFailure len).stage, (parseFailure len).off)
    else (Status.success, 0)
  | .setfc | .setaddrs | .setdur | .setseq | .setcrc => (Status.success, 0)

/-- The 16-bit number that shows the eleven fields of `FC` (10_state.md R19). -/
def FrameControl.number (f : FrameControl) : Nat :=
  f.version.toNat * 2 ^ 14 + f.ftype.toNat * 2 ^ 12 + f.subtype.toNat * 2 ^ 8 + f.toDs.toNat * 2 ^ 7
    + f.fromDs.toNat * 2 ^ 6 + f.moreFragments.toNat * 2 ^ 5 + f.retry.toNat * 2 ^ 4 + f.powerMgmt.toNat * 2 ^ 3
    + f.moreData.toNat * 2 ^ 2 + f.wep.toNat * 2 + f.order.toNat

/-- The 48-bit number that shows an address, its first byte the most significant (10_state.md R21). -/
def Address.number (x : Address) : Nat :=
  x.b0.toNat * 2 ^ 40 + x.b1.toNat * 2 ^ 32 + x.b2.toNat * 2 ^ 24 + x.b3.toNat * 2 ^ 16 + x.b4.toNat * 2 ^ 8 + x.b5.toNat

/-- Inputs served one after another, stopping where one stops (20_memory.md R46). -/
def serveAll : List Input → State → Host.Outcome State Fault Refusal
  | [], s => .next s
  | x :: xs, s =>
    match serve x s with
    | .next t => serveAll xs t
    | .fault e => .fault e
    | .refused r => .refused r

/-- A replace operation with the value the host supplies for it (44_record_replace.md R101). -/
inductive Replacement where
  | fc (w : Word)
  | addrs (x1 x2 x3 x4 : Address)
  | duration (w : Word)
  | seqControl (w : Word)
  | crc (w : Word)
deriving DecidableEq, Repr

/-- The operation that makes a replacement. -/
def Replacement.instr : Replacement → Instr
  | .fc _ => .setfc
  | .addrs _ _ _ _ => .setaddrs
  | .duration _ => .setdur
  | .seqControl _ => .setseq
  | .crc _ => .setcrc

/-- The host's writes of the operands, at the indices of 10_state.md R27. -/
def Replacement.operands : Replacement → List Input
  | .fc w => [.write 0x18 w.toNat]
  | .addrs x1 x2 x3 x4 =>
    [.write 0x1A x1.number, .write 0x1B x2.number, .write 0x1C x3.number, .write 0x1D x4.number]
  | .duration w | .seqControl w | .crc w => [.write 0x19 w.toNat]

/-- A replacement as the host makes it: the operands, then the command (70_reset_and_hazards.md R131, "build a record"). -/
def Replacement.inputs (r : Replacement) : List Input := r.operands ++ [commandInput (encode r.instr)]

/-- The record holds what the replacement supplied, bit for bit (44_record_replace.md R101). -/
def Replacement.heldBy (t : State) : Replacement → Prop
  | .fc w => t.fc.map FrameControl.number = some w.toNat
  | .addrs x1 x2 x3 x4 => t.addr1 = some x1 ∧ t.addr2 = some x2 ∧ t.addr3 = some x3 ∧ t.addr4 = some x4
  | .duration w => t.duration = some w
  | .seqControl w => t.seqControl = some w
  | .crc w => t.crc = some w

/-- The five replace operations of the Frame Record (44_record_replace.md). -/
def isReplace : Instr → Bool
  | .setfc | .setaddrs | .setdur | .setseq | .setcrc => true
  | .rdbits _ | .rdfc | .rdu16 _ | .rdaddr _ | .span | .parse => false

/-- The stages of the expansion `parse.steps` that are commands (30_encoding.md R63). -/
def parseSteps : List Instr :=
  [.rdfc, .rdu16 .duration, .rdaddr .addr1, .rdaddr .addr2, .rdaddr .addr3, .rdaddr .addr4, .rdu16 .seqControl, .span,
    .rdu16 .crc]

end Sys2Proof.Machine
end

