-- ==== Sys2Proof/WellFormed.lean ====
section
/-! DEFINITION. The checks on what the host sends: a command byte is one of the eighteen legal ones (30_encoding.md
R57), an access is one that 10_state.md R16 and R27 give a meaning. -/

namespace Sys2Proof

/-- The legal command bytes, from the column of that name in 30_encoding.md R57, and not from the decoder. -/
def legalCommands : List Byte :=
  [0x10, 0x11, 0x12, 0x20, 0x30, 0x31, 0x32, 0x40, 0x41, 0x42, 0x43, 0x50, 0x60, 0x80, 0x90, 0xA0, 0xA1, 0xA2]

/-- A command byte is legal. -/
def wellFormedCommand (b : Byte) : Bool := legalCommands.contains b

/-- An instruction is well formed when the byte that stands for it is legal. -/
def Instr.wellFormed (i : Instr) : Bool := wellFormedCommand (encode i)

/-- A value the host may write to a register: it fits the width (10_state.md R27), and for `LEN` it is at most
`CAP` (10_state.md R16). -/
def wellFormedValue (cap : Nat) (r : HostReg) (value : Nat) : Bool :=
  match r with
  | .len => value ≤ cap
  | _ => value < 2 ^ r.width cap

/-- An access of the host has a meaning: the index names a register, the register grants the access, the value fits,
the window offset lies below `CAP` (10_state.md R16, R27; 70_reset_and_hazards.md R131). A reset always has. -/
def Input.wellFormed (cap : Nat) : Input → Bool
  | .write index value =>
    match hostRegAt index with
    | some r => r.writable && wellFormedValue cap r value
    | none => false
  | .read index =>
    match hostRegAt index with
    | some r => r.readable
    | none => false
  | .writeBuf a _ => a < cap
  | .readBuf a => a < cap
  | .reset => true

end Sys2Proof
end

