-- ==== Sys2Proof/Certificates/Slice0/Obligations.lean ====
section
/-! DEFINITION. The statements for the provers, from the spec's numbered rules, family by family. -/

open Sys2Proof Sys2Proof.Machine

/-! ## Encoding -/

/-- 30_encoding.md R57: the eighteen command bytes of the opcode map, each with the instruction it stands for. -/
def Obligations.SpecCommandBytesDecode : Prop :=
  decode 0x10 = .ok (.rdbits .w1) ∧ decode 0x11 = .ok (.rdbits .w2) ∧ decode 0x12 = .ok (.rdbits .w4) ∧
  decode 0x20 = .ok .rdfc ∧
  decode 0x30 = .ok (.rdu16 .duration) ∧ decode 0x31 = .ok (.rdu16 .seqControl) ∧ decode 0x32 = .ok (.rdu16 .crc) ∧
  decode 0x40 = .ok (.rdaddr .addr1) ∧ decode 0x41 = .ok (.rdaddr .addr2) ∧
  decode 0x42 = .ok (.rdaddr .addr3) ∧ decode 0x43 = .ok (.rdaddr .addr4) ∧
  decode 0x50 = .ok .span ∧ decode 0x60 = .ok .parse ∧
  decode 0x80 = .ok .setfc ∧ decode 0x90 = .ok .setaddrs ∧
  decode 0xA0 = .ok .setdur ∧ decode 0xA1 = .ok .setseq ∧ decode 0xA2 = .ok .setcrc

/-- 30_encoding.md R57, R58, R60: the decoder reads an instruction from exactly the byte that encodes it, so no bit of an
encoding is dropped and no byte has two meanings. -/
def Obligations.DecodeInvertsEncode : Prop :=
  ∀ (b : Byte) (i : Instr), decode b = .ok i ↔ encode i = b

/-- 30_encoding.md R57, R59: a byte has an instruction exactly when it is one of the eighteen legal ones. -/
def Obligations.LegalBytesAreTheEighteen : Prop :=
  ∀ b : Byte, (∃ i, decode b = .ok i) ↔ b ∈ legalCommands

/-! ## Steps -/

/-- 10_state.md R28: a step serves the oldest input; when that is a write to `CMD` of a byte that decodes to an
instruction, the step is that instruction on the state without that input; and what `withFetchWord` places is what the next
step runs, with nothing else changed. That inputs stand in a list is the model's choice (log 4). -/
def Obligations.StepRunsDecodedCommand : Prop :=
  (∀ (s : State) (x : Input) (rest : List Input), s.inputs = x :: rest → step s = serve x { s with inputs := rest }) ∧
  (∀ (s : State) (b : Byte) (rest : List Input) (i : Instr),
    s.inputs = commandInput b :: rest → decode b = .ok i → step s = exec i { s with inputs := rest }) ∧
  (∀ (s : State) (i : Instr), step (s.withFetchWord 8 (encode i).toNat) = exec i s)

/-- 60_exceptions.md R107: a reserved byte written to `CMD` changes nothing but `STATUS` and `ERR_OFF`. -/
def Obligations.ReservedByteIsIllegalCommand : Prop :=
  ∀ (s : State) (b : Byte), b ∉ legalCommands →
    serve (commandInput b) s = .next { s with status := Status.failed .illegalCommand .cmd, errOff := 0 }

/-- 70_reset_and_hazards.md R120 (log 4): with no input pending the block does nothing. -/
def Obligations.IdleBlockDoesNothing : Prop :=
  ∀ s : State, s.inputs = [] → step s = .next s

/-! ## RDBITS -/

/-- 40_bitfield_reader.md R66: `RDBITS w` with its bits below `8 * LEN` in written bytes, at any cursor, byte boundary
crossed or not: the value has the first bit on top, and is a slice of the byte when the bits lie in one. -/
def Obligations.RdbitsReadsMostSignificantFirst : Prop :=
  ∀ (w : Width) (s : State),
    s.cur + widthBits w ≤ 8 * s.len →
    (∀ k, k < widthBits w → s.written ((s.cur + k) / 8) = true) →
    ∃ v : BitVec 4,
      exec (.rdbits w) s = .next { s with
        bitval := some v, cur := s.cur + widthBits w, status := Status.success, errOff := 0 } ∧
      v.toNat = (match w with
        | .w1 => (s.bitAt s.cur).toNat
        | .w2 => 2 * (s.bitAt s.cur).toNat + (s.bitAt (s.cur + 1)).toNat
        | .w4 => 8 * (s.bitAt s.cur).toNat + 4 * (s.bitAt (s.cur + 1)).toNat + 2 * (s.bitAt (s.cur + 2)).toNat
            + (s.bitAt (s.cur + 3)).toNat) ∧
      (s.cur % 8 + widthBits w ≤ 8 →
        v.toNat = (s.byteAt (s.cur / 8)).toNat / 2 ^ (8 - s.cur % 8 - widthBits w) % 2 ^ widthBits w)

/-- 40_bitfield_reader.md R70: with fewer than `w` bits left `RDBITS w` fails and consumes nothing; with exactly `w` left
it succeeds and leaves `CUR` at `8 * LEN`. -/
def Obligations.RdbitsFailsWithoutData : Prop :=
  (∀ (w : Width) (s : State), availBits s.len s.cur < widthBits w →
    exec (.rdbits w) s = .next { s with
      bitval := none, status := Status.failed .insufficientData .bits, errOff := s.cur }) ∧
  (∀ (w : Width) (s : State), 8 * s.len ≤ s.cur →
    exec (.rdbits w) s = .next { s with
      bitval := none, status := Status.failed .insufficientData .bits, errOff := s.cur }) ∧
  (∀ (w : Width) (s : State), s.cur + widthBits w = 8 * s.len →
    (∀ k, k < widthBits w → s.written ((s.cur + k) / 8) = true) →
    ∃ t, exec (.rdbits w) s = .next t ∧ t.status = Status.success ∧ t.cur = 8 * s.len)

/-- 40_bitfield_reader.md R69: `RDBITS w` never leaves a value of `2^w` or more. -/
def Obligations.RdbitsValueBelowWidth : Prop :=
  ∀ (w : Width) (s t : State) (v : BitVec 4),
    exec (.rdbits w) s = .next t → t.bitval = some v → v.toNat < 2 ^ widthBits w

/-- 40_bitfield_reader.md R67: consecutive reads return the bits they stand on, with none skipped or taken twice; two
reads of 2 bits, or four of 1 bit, make up the read of 4 bits from the same cursor. -/
def Obligations.RdbitsReadsCompose : Prop :=
  (∀ (w₁ w₂ : Width) (s t u : State),
    exec (.rdbits w₁) s = .next t → t.status.err = false → exec (.rdbits w₂) t = .next u → u.status.err = false →
      t.bitval = some (BitVec.ofNat 4 (s.bitsAt s.cur (widthBits w₁))) ∧
      u.bitval = some (BitVec.ofNat 4 (s.bitsAt (s.cur + widthBits w₁) (widthBits w₂))) ∧
      u.cur = s.cur + widthBits w₁ + widthBits w₂) ∧
  (∀ (s u : State) (hi lo : BitVec 4), runBits [.w2, .w2] s = some ([hi, lo], u) →
    ∃ t v, exec (.rdbits .w4) s = .next t ∧ t.bitval = some v ∧ v.toNat = 4 * hi.toNat + lo.toNat ∧ t.cur = u.cur) ∧
  (∀ (s u : State) (a b c d : BitVec 4), runBits [.w1, .w1, .w1, .w1] s = some ([a, b, c, d], u) →
    ∃ t v, exec (.rdbits .w4) s = .next t ∧ t.bitval = some v ∧
      v.toNat = 8 * a.toNat + 4 * b.toNat + 2 * c.toNat + d.toNat ∧ t.cur = u.cur)

/-- 40_bitfield_reader.md R65: the frame of `RDBITS`: it writes `BITVAL`, `CUR`, `STATUS`, `ERR_OFF`. -/
def Obligations.RdbitsFrame : Prop :=
  ∀ (w : Width) (s t : State), exec (.rdbits w) s = .next t →
    t = { s with bitval := t.bitval, cur := t.cur, status := t.status, errOff := t.errOff } ∧
    ∀ a, Memory.get t.buf a = Memory.get s.buf a

/-! ## RDFC -/

/-- 30_encoding.md R50, R51: `RDFC` at a byte boundary with two written bytes left decodes the eleven fields from the
two bytes and moves `CUR` by 16 bits. -/
def Obligations.RdfcDecodesElevenFields : Prop :=
  ∀ s : State, s.cur % 8 = 0 → s.cur + 16 ≤ 8 * s.len → s.writtenFrom (s.cur / 8) 2 →
    exec .rdfc s = .next { s with
      fc := some {
        version := (s.byteAt (s.cur / 8)).extractLsb' 6 2
        ftype := (s.byteAt (s.cur / 8)).extractLsb' 4 2
        subtype := (s.byteAt (s.cur / 8)).extractLsb' 0 4
        toDs := (s.byteAt (s.cur / 8 + 1)).extractLsb' 7 1
        fromDs := (s.byteAt (s.cur / 8 + 1)).extractLsb' 6 1
        moreFragments := (s.byteAt (s.cur / 8 + 1)).extractLsb' 5 1
        retry := (s.byteAt (s.cur / 8 + 1)).extractLsb' 4 1
        powerMgmt := (s.byteAt (s.cur / 8 + 1)).extractLsb' 3 1
        moreData := (s.byteAt (s.cur / 8 + 1)).extractLsb' 2 1
        wep := (s.byteAt (s.cur / 8 + 1)).extractLsb' 1 1
        order := (s.byteAt (s.cur / 8 + 1)).extractLsb' 0 1 }
      cur := s.cur + 16
      status := Status.success
      errOff := 0 }

/-- 41_frame_control.md R74: `RDFC` with fewer than two bytes left fails at its start and consumes nothing. -/
def Obligations.RdfcFailsWithoutData : Prop :=
  ∀ s : State, s.cur % 8 = 0 → availBytes s.len s.cur < 2 →
    exec .rdfc s = .next { s with fc := none, status := Status.failed .insufficientData .fc, errOff := s.cur }

/-- 41_frame_control.md R72: `RDFC` is eleven bit-field reads, which leave its fields one by one in `BITVAL` and the
cursor where it leaves it; on a frame of one byte the reads fail at bit 8 and `RDFC` at once. -/
def Obligations.RdfcIsElevenBitReads : Prop :=
  (∀ s : State, s.cur % 8 = 0 → s.cur + 16 ≤ 8 * s.len → s.writtenFrom (s.cur / 8) 2 →
    ∃ t f u, exec .rdfc s = .next t ∧ t.fc = some f ∧
      runBits [.w2, .w2, .w4, .w1, .w1, .w1, .w1, .w1, .w1, .w1, .w1] s =
        some ([f.version.setWidth 4, f.ftype.setWidth 4, f.subtype, f.toDs.setWidth 4, f.fromDs.setWidth 4,
          f.moreFragments.setWidth 4, f.retry.setWidth 4, f.powerMgmt.setWidth 4, f.moreData.setWidth 4,
          f.wep.setWidth 4, f.order.setWidth 4], u) ∧
      t.cur = s.cur + 16 ∧ u.cur = s.cur + 16) ∧
  (∀ s : State, s.len = 1 → s.cur = 0 → s.written 0 = true →
    (∃ t, runAll [.rdbits .w2, .rdbits .w2, .rdbits .w4] s = .next t ∧ t.status = Status.success ∧
      exec (.rdbits .w1) t = .next { t with
        bitval := none, status := Status.failed .insufficientData .bits, errOff := 8 }) ∧
    exec .rdfc s = .next { s with fc := none, status := Status.failed .insufficientData .fc, errOff := 0 })

/-- 10_state.md R19, 41_frame_control.md R73: the 16-bit image and the eleven fields are one to one. -/
def Obligations.FrameControlImageIsBijection : Prop :=
  (∀ w : Word, wordOfFc (fcOfWord w) = w) ∧ ∀ f : FrameControl, fcOfWord (wordOfFc f) = f

/-! ## RDU16, RDADDR -/

/-- 42_fixed_width.md R76, R81: `RDU16` at a byte boundary with two written bytes left puts the big-endian number into
its register, whichever of the three it is, and moves `CUR` by 16 bits. -/
def Obligations.Rdu16ReadsBigEndian : Prop :=
  ∀ (rd : U16Reg) (s : State), s.cur % 8 = 0 → s.cur + 16 ≤ 8 * s.len → s.writtenFrom (s.cur / 8) 2 →
    ∃ v : Word,
      v.toNat = (s.byteAt (s.cur / 8)).toNat * 256 + (s.byteAt (s.cur / 8 + 1)).toNat ∧
      exec (.rdu16 rd) s = .next (match rd with
        | .duration => { s with duration := some v, cur := s.cur + 16, status := Status.success, errOff := 0 }
        | .seqControl => { s with seqControl := some v, cur := s.cur + 16, status := Status.success, errOff := 0 }
        | .crc => { s with crc := some v, cur := s.cur + 16, status := Status.success, errOff := 0 })

/-- 42_fixed_width.md R77: `RDU16` with fewer than two bytes left fails and consumes nothing. -/
def Obligations.Rdu16FailsWithoutData : Prop :=
  ∀ s : State, s.cur % 8 = 0 → availBytes s.len s.cur < 2 →
    exec (.rdu16 .duration) s = .next { s with
      duration := none, status := Status.failed .insufficientData .duration, errOff := s.cur } ∧
    exec (.rdu16 .seqControl) s = .next { s with
      seqControl := none, status := Status.failed .insufficientData .seqControl, errOff := s.cur } ∧
    exec (.rdu16 .crc) s = .next { s with
      crc := none, status := Status.failed .insufficientData .crc, errOff := s.cur }

/-- 42_fixed_width.md R78, 20_memory.md R39: `RDADDR` at a byte boundary with six written bytes left puts them in raw
order into its register and moves `CUR` by 48 bits. -/
def Obligations.RdaddrReadsRawOrder : Prop :=
  ∀ (ra : AddrReg) (s : State), s.cur % 8 = 0 → s.cur + 48 ≤ 8 * s.len → s.writtenFrom (s.cur / 8) 6 →
    ∃ x : Address,
      x = ⟨s.byteAt (s.cur / 8), s.byteAt (s.cur / 8 + 1), s.byteAt (s.cur / 8 + 2), s.byteAt (s.cur / 8 + 3),
        s.byteAt (s.cur / 8 + 4), s.byteAt (s.cur / 8 + 5)⟩ ∧
      exec (.rdaddr ra) s = .next (match ra with
        | .addr1 => { s with addr1 := some x, cur := s.cur + 48, status := Status.success, errOff := 0 }
        | .addr2 => { s with addr2 := some x, cur := s.cur + 48, status := Status.success, errOff := 0 }
        | .addr3 => { s with addr3 := some x, cur := s.cur + 48, status := Status.success, errOff := 0 }
        | .addr4 => { s with addr4 := some x, cur := s.cur + 48, status := Status.success, errOff := 0 })

/-- 42_fixed_width.md R79: `RDADDR` with fewer than six bytes left fails and consumes nothing. -/
def Obligations.RdaddrFailsWithoutData : Prop :=
  ∀ s : State, s.cur % 8 = 0 → availBytes s.len s.cur < 6 →
    exec (.rdaddr .addr1) s = .next { s with
      addr1 := none, status := Status.failed .insufficientData .addr1, errOff := s.cur } ∧
    exec (.rdaddr .addr2) s = .next { s with
      addr2 := none, status := Status.failed .insufficientData .addr2, errOff := s.cur } ∧
    exec (.rdaddr .addr3) s = .next { s with
      addr3 := none, status := Status.failed .insufficientData .addr3, errOff := s.cur } ∧
    exec (.rdaddr .addr4) s = .next { s with
      addr4 := none, status := Status.failed .insufficientData .addr4, errOff := s.cur }

/-- 60_exceptions.md R109 (with 41_frame_control.md R75 and 42_fixed_width.md R80): a byte-granular command at a cursor
inside a byte fails with `MISALIGNED_CURSOR`, however much data is left; `PARSE` never does; and only `RDBITS` or a host
write to `CUR` takes the cursor off a byte boundary. -/
def Obligations.MisalignedCursorFails : Prop :=
  (∀ s : State, bitInByte s.cur ≠ 0 →
    exec .rdfc s = .next { s with fc := none, status := Status.failed .misalignedCursor .fc, errOff := s.cur } ∧
    exec (.rdu16 .duration) s = .next { s with
      duration := none, status := Status.failed .misalignedCursor .duration, errOff := s.cur } ∧
    exec (.rdu16 .seqControl) s = .next { s with
      seqControl := none, status := Status.failed .misalignedCursor .seqControl, errOff := s.cur } ∧
    exec (.rdu16 .crc) s = .next { s with
      crc := none, status := Status.failed .misalignedCursor .crc, errOff := s.cur } ∧
    exec (.rdaddr .addr1) s = .next { s with
      addr1 := none, status := Status.failed .misalignedCursor .addr1, errOff := s.cur } ∧
    exec (.rdaddr .addr2) s = .next { s with
      addr2 := none, status := Status.failed .misalignedCursor .addr2, errOff := s.cur } ∧
    exec (.rdaddr .addr3) s = .next { s with
      addr3 := none, status := Status.failed .misalignedCursor .addr3, errOff := s.cur } ∧
    exec (.rdaddr .addr4) s = .next { s with
      addr4 := none, status := Status.failed .misalignedCursor .addr4, errOff := s.cur } ∧
    exec .span s = .next { s with
      payOff := none, payLen := none, status := Status.failed .misalignedCursor .payload, errOff := s.cur }) ∧
  (∀ s t : State, exec .parse s = .next t → t.status.code ≠ .misalignedCursor) ∧
  (∀ (x : Input) (s t : State), serve x s = .next t → bitInByte s.cur = 0 → bitInByte t.cur ≠ 0 →
    (∃ v, x = .write 0x04 v) ∨ ∃ w, x = commandInput (encode (.rdbits w)))

/-- 41_frame_control.md R71, 42_fixed_width.md R76, R78: the frame of the byte-granular readers: the destination, `CUR`,
`STATUS` and `ERR_OFF` are written, nothing else is. -/
def Obligations.ReadersFrame : Prop :=
  ∀ s t : State,
    (exec .rdfc s = .next t → t = { s with fc := t.fc, cur := t.cur, status := t.status, errOff := t.errOff }) ∧
    (∀ rd, exec (.rdu16 rd) s = .next t →
      t = { setU16 rd (getU16 rd t) s with cur := t.cur, status := t.status, errOff := t.errOff }) ∧
    (∀ ra, exec (.rdaddr ra) s = .next t →
      t = { setAddr ra (getAddr ra t) s with cur := t.cur, status := t.status, errOff := t.errOff }) ∧
    ((exec .rdfc s = .next t ∨ (∃ rd, exec (.rdu16 rd) s = .next t) ∨ ∃ ra, exec (.rdaddr ra) s = .next t) →
      ∀ a, Memory.get t.buf a = Memory.get s.buf a)

/-- 20_memory.md R40: the same two bytes read by `RDU16`, by `RDFC` and by sixteen `RDBITS` of width 1 agree. -/
def Obligations.MixedWidthViewsAgree : Prop :=
  ∀ (rd : U16Reg) (s : State), s.cur % 8 = 0 → s.cur + 16 ≤ 8 * s.len → s.writtenFrom (s.cur / 8) 2 →
    ∃ (v : Word) (t u x : State), v = s.byteAt (s.cur / 8) ++ s.byteAt (s.cur / 8 + 1) ∧
      exec (.rdu16 rd) s = .next t ∧ getU16 rd t = some v ∧
      exec .rdfc s = .next u ∧ u.fc.map wordOfFc = some v ∧
      runBits (List.replicate 16 .w1) s =
        some ((List.range 16).map fun k => BitVec.ofNat 4 (v.getLsbD (15 - k)).toNat, x)

/-! ## SPAN -/

/-- 43_assembler.md R85 (and R83): `SPAN` at a byte boundary with two bytes or more left reports all of them but the last
two and leaves those two; with exactly two left the payload is empty and `CUR` does not move. -/
def Obligations.SpanLocatesPayload : Prop :=
  ∀ s : State, s.cur % 8 = 0 → 2 ≤ availBytes s.len s.cur →
    exec .span s = .next { s with
      payOff := some (s.cur / 8)
      payLen := some (availBytes s.len s.cur - 2)
      cur := s.cur + 8 * (availBytes s.len s.cur - 2)
      status := Status.success
      errOff := 0 } ∧
    s.cur + 8 * (availBytes s.len s.cur - 2) = 8 * s.len - 16 ∧
    (availBytes s.len s.cur = 2 →
      exec .span s = .next { s with
        payOff := some (s.cur / 8), payLen := some 0, status := Status.success, errOff := 0 })

/-- 43_assembler.md R84: `SPAN` with fewer than two bytes left fails with `TRUNCATED_FRAME`; no length that it or `PARSE`
reports is a wrapped one. -/
def Obligations.SpanTooShortIsTruncated : Prop :=
  (∀ s : State, s.cur % 8 = 0 → availBytes s.len s.cur < 2 →
    exec .span s = .next { s with
      payOff := none, payLen := none, status := Status.failed .truncatedFrame .payload, errOff := s.cur }) ∧
  (∀ (s t : State) (n : Nat), exec .span s = .next t ∨ exec .parse s = .next t → t.payLen = some n → n + 2 ≤ s.len)

/-- 43_assembler.md R83: `SPAN` reads no byte of `BUF`: any other contents give the same result. -/
def Obligations.SpanReadsNoByte : Prop :=
  ∀ (s t : State) (m : List Host.Cell), exec .span s = .next t → exec .span { s with buf := m } = .next { t with buf := m }

/-! ## PARSE -/

/-- 43_assembler.md R88: `PARSE` succeeds if and only if `LEN >= 32`, and then leaves the closed form, in which no
payload byte stands. -/
def Obligations.ParseDecodesWholeFrame : Prop :=
  (∀ s : State, 32 ≤ s.len → s.writtenFrom 0 30 → s.writtenFrom (s.len - 2) 2 →
    exec .parse s = .next { s with
      fc := some {
        version := (s.byteAt 0).extractLsb' 6 2
        ftype := (s.byteAt 0).extractLsb' 4 2
        subtype := (s.byteAt 0).extractLsb' 0 4
        toDs := (s.byteAt 1).extractLsb' 7 1
        fromDs := (s.byteAt 1).extractLsb' 6 1
        moreFragments := (s.byteAt 1).extractLsb' 5 1
        retry := (s.byteAt 1).extractLsb' 4 1
        powerMgmt := (s.byteAt 1).extractLsb' 3 1
        moreData := (s.byteAt 1).extractLsb' 2 1
        wep := (s.byteAt 1).extractLsb' 1 1
        order := (s.byteAt 1).extractLsb' 0 1 }
      duration := some (s.byteAt 2 ++ s.byteAt 3)
      addr1 := some ⟨s.byteAt 4, s.byteAt 5, s.byteAt 6, s.byteAt 7, s.byteAt 8, s.byteAt 9⟩
      addr2 := some ⟨s.byteAt 10, s.byteAt 11, s.byteAt 12, s.byteAt 13, s.byteAt 14, s.byteAt 15⟩
      addr3 := some ⟨s.byteAt 16, s.byteAt 17, s.byteAt 18, s.byteAt 19, s.byteAt 20, s.byteAt 21⟩
      addr4 := some ⟨s.byteAt 22, s.byteAt 23, s.byteAt 24, s.byteAt 25, s.byteAt 26, s.byteAt 27⟩
      seqControl := some (s.byteAt 28 ++ s.byteAt 29)
      payOff := some 30
      payLen := some (s.len - 32)
      crc := some (s.byteAt (s.len - 2) ++ s.byteAt (s.len - 1))
      cur := 8 * s.len
      status := Status.success
      errOff := 0 }) ∧
  (∀ s t : State, exec .parse s = .next t → (t.status.err = false ↔ 32 ≤ s.len))

/-- 43_assembler.md R89: which failure `PARSE` reports, as a function of `LEN` alone; at 32 bytes or more it reports none.
That `PARSE` answers for every shorter frame, also where a byte below `LEN` holds `none`, is the model's choice (log 12). -/
def Obligations.ParseFailureIsByLengthAlone : Prop :=
  (∀ s t : State, 32 ≤ s.len → exec .parse s = .next t → t.status = Status.success ∧ t.errOff = 0) ∧
  ∀ s : State, s.len < 32 →
    ∃ t, exec .parse s = .next t ∧
      (s.len ≤ 1 → t.status = Status.failed .insufficientData .fc ∧ t.errOff = 0) ∧
      (2 ≤ s.len ∧ s.len ≤ 3 → t.status = Status.failed .insufficientData .duration ∧ t.errOff = 16) ∧
      (4 ≤ s.len ∧ s.len ≤ 9 → t.status = Status.failed .insufficientData .addr1 ∧ t.errOff = 32) ∧
      (10 ≤ s.len ∧ s.len ≤ 15 → t.status = Status.failed .insufficientData .addr2 ∧ t.errOff = 80) ∧
      (16 ≤ s.len ∧ s.len ≤ 21 → t.status = Status.failed .insufficientData .addr3 ∧ t.errOff = 128) ∧
      (22 ≤ s.len ∧ s.len ≤ 27 → t.status = Status.failed .insufficientData .addr4 ∧ t.errOff = 176) ∧
      (28 ≤ s.len ∧ s.len ≤ 29 → t.status = Status.failed .insufficientData .seqControl ∧ t.errOff = 224) ∧
      (30 ≤ s.len → t.status = Status.failed .truncatedFrame .payload ∧ t.errOff = 240)

/-- 43_assembler.md R90: on success `PARSE` writes every destination; on failure every destination is `none`, whatever it
held, and `CUR`, `BITVAL` and the operand registers are untouched. -/
def Obligations.ParseIsAllOrNothing : Prop :=
  ∀ s t : State, exec .parse s = .next t →
    (t.status = Status.success ∧ recValid t = true ∧ spanValid t = true) ∨
    (t = { s with
      fc := none
      duration := none
      addr1 := none
      addr2 := none
      addr3 := none
      addr4 := none
      seqControl := none
      crc := none
      payOff := none
      payLen := none
      status := Status.failed (parseFailure s.len).cond.code (parseFailure s.len).stage
      errOff := (parseFailure s.len).off } ∧ recValid t = false ∧ spanValid t = false)

/-- 43_assembler.md R91: two states with the same `LEN` and the same frame bytes parse to the same record, span, `STATUS`
and `ERR_OFF`, whatever else they hold; a second `PARSE` changes nothing. -/
def Obligations.ParseDependsOnFrameAlone : Prop :=
  (∀ s₁ s₂ t₁ : State, s₁.len = s₂.len → (∀ a, a < s₁.len → Memory.get s₁.buf a = Memory.get s₂.buf a) →
    exec .parse s₁ = .next t₁ →
    ∃ t₂, exec .parse s₂ = .next t₂ ∧ t₂.fc = t₁.fc ∧ t₂.duration = t₁.duration ∧ t₂.addr1 = t₁.addr1 ∧
      t₂.addr2 = t₁.addr2 ∧ t₂.addr3 = t₁.addr3 ∧ t₂.addr4 = t₁.addr4 ∧ t₂.seqControl = t₁.seqControl ∧
      t₂.crc = t₁.crc ∧ t₂.payOff = t₁.payOff ∧ t₂.payLen = t₁.payLen ∧ t₂.status = t₁.status ∧
      t₂.errOff = t₁.errOff ∧ (t₁.status.err = false → t₂.cur = t₁.cur)) ∧
  (∀ s t : State, exec .parse s = .next t → exec .parse t = .next t)

/-- 30_encoding.md R63, 43_assembler.md R87: for a frame of 32 bytes or more `PARSE` is the nine commands of `parse.steps`
from `CUR = 0`, outcome for outcome. -/
def Obligations.ParseIsItsNineSteps : Prop :=
  ∀ s : State, 32 ≤ s.len → runAll parseSteps { s with cur := 0 } = exec .parse s

/-- 43_assembler.md R92: after a successful `PARSE` nothing is left, and each command that reads at the cursor fails for
lack of data. -/
def Obligations.NothingRemainsAfterParse : Prop :=
  ∀ s t : State, exec .parse s = .next t → t.status.err = false →
    t.cur = 8 * t.len ∧ availBits t.len t.cur = 0 ∧
    ∀ i, ((∃ w, i = .rdbits w) ∨ i = .rdfc ∨ (∃ rd, i = .rdu16 rd) ∨ ∃ ra, i = .rdaddr ra) →
      ∃ u, exec i t = .next u ∧ u.status.code = .insufficientData

/-- 70_reset_and_hazards.md R128: the span identity, after `PARSE` and after a `SPAN` from any byte offset; nothing
ends it but a write to `LEN`, another `SPAN` or `PARSE`, or a reset. -/
def Obligations.SpanIdentity : Prop :=
  (∀ s t : State, exec .parse s = .next t → t.status.err = false →
    ∃ n, t.payOff = some 30 ∧ t.payLen = some n ∧ 30 + n + 2 = t.len) ∧
  (∀ s t : State, exec .span s = .next t → t.status.err = false →
    ∃ n, t.payOff = some (s.cur / 8) ∧ t.payLen = some n ∧ s.cur / 8 + n + 2 = t.len) ∧
  (∀ (s t : State) (x : Input) (a n : Nat),
    (∀ v, x ≠ .write 0x03 v) → x ≠ commandInput (encode .span) → x ≠ commandInput (encode .parse) → x ≠ .reset →
    s.payOff = some a → s.payLen = some n → a + n + 2 = s.len → serve x s = .next t →
      t.payOff = some a ∧ t.payLen = some n ∧ a + n + 2 = t.len)

/-- 43_assembler.md R83, R87: the frame of `SPAN` and `PARSE`. -/
def Obligations.AssemblerFrame : Prop :=
  ∀ s t : State,
    (exec .span s = .next t →
      t = { s with payOff := t.payOff, payLen := t.payLen, cur := t.cur, status := t.status, errOff := t.errOff }) ∧
    (exec .parse s = .next t →
      t = { s with
        fc := t.fc
        duration := t.duration
        addr1 := t.addr1
        addr2 := t.addr2
        addr3 := t.addr3
        addr4 := t.addr4
        seqControl := t.seqControl
        crc := t.crc
        payOff := t.payOff
        payLen := t.payLen
        cur := t.cur
        status := t.status
        errOff := t.errOff }) ∧
    ((exec .span s = .next t ∨ exec .parse s = .next t) → ∀ a, Memory.get t.buf a = Memory.get s.buf a)

/-! ## The replace operations -/

/-- 44_record_replace.md R95: `SETFC`, in any state: the eleven fields of `FC` from `ARG_FC`, a `none` copied as `none`,
nothing else but `STATUS` and `ERR_OFF`. -/
def Obligations.SetfcReplacesFrameControl : Prop :=
  decode 0x80 = .ok .setfc ∧
  ∀ s : State, exec .setfc s = .next { s with
    fc := s.argFc.map fun w => {
      version := w.extractLsb' 14 2
      ftype := w.extractLsb' 12 2
      subtype := w.extractLsb' 8 4
      toDs := w.extractLsb' 7 1
      fromDs := w.extractLsb' 6 1
      moreFragments := w.extractLsb' 5 1
      retry := w.extractLsb' 4 1
      powerMgmt := w.extractLsb' 3 1
      moreData := w.extractLsb' 2 1
      wep := w.extractLsb' 1 1
      order := w.extractLsb' 0 1 }
    status := Status.success
    errOff := 0 }

/-- 44_record_replace.md R96: `SETADDRS`, in any state: all four addresses in one step, nothing else. -/
def Obligations.SetaddrsReplacesAllFour : Prop :=
  decode 0x90 = .ok .setaddrs ∧
  ∀ s : State, exec .setaddrs s = .next { s with
    addr1 := s.argAddr1
    addr2 := s.argAddr2
    addr3 := s.argAddr3
    addr4 := s.argAddr4
    status := Status.success
    errOff := 0 }

/-- 44_record_replace.md R97, R98, R99: `SETDUR`, `SETSEQ`, `SETCRC`, in any state: the one register from `ARG_U16`,
nothing else. -/
def Obligations.SetU16ReplacesOneRegister : Prop :=
  decode 0xA0 = .ok .setdur ∧ decode 0xA1 = .ok .setseq ∧ decode 0xA2 = .ok .setcrc ∧
  ∀ s : State,
    exec .setdur s = .next { s with duration := s.argU16, status := Status.success, errOff := 0 } ∧
    exec .setseq s = .next { s with seqControl := s.argU16, status := Status.success, errOff := 0 } ∧
    exec .setcrc s = .next { s with crc := s.argU16, status := Status.success, errOff := 0 }

/-- 44_record_replace.md R94: the frame of the replace operations. -/
def Obligations.ReplaceFrame : Prop :=
  ∀ s t : State,
    (exec .setfc s = .next t → t = { s with fc := t.fc, status := t.status, errOff := t.errOff }) ∧
    (exec .setaddrs s = .next t → t = { s with
      addr1 := t.addr1, addr2 := t.addr2, addr3 := t.addr3, addr4 := t.addr4, status := t.status, errOff := t.errOff }) ∧
    (exec .setdur s = .next t → t = { s with duration := t.duration, status := t.status, errOff := t.errOff }) ∧
    (exec .setseq s = .next t → t = { s with seqControl := t.seqControl, status := t.status, errOff := t.errOff }) ∧
    (exec .setcrc s = .next t → t = { s with crc := t.crc, status := t.status, errOff := t.errOff }) ∧
    (∀ i, isReplace i = true → exec i s = .next t → ∀ a, Memory.get t.buf a = Memory.get s.buf a)

/-- 44_record_replace.md R101: replace operations commute, and each is idempotent; and with the operands written before
each, a sequence of them runs to its end, a register holds what the last replacement of it supplied, one that none
replaces keeps what it held, and any order of replacements of different registers gives the same record. -/
def Obligations.ReplaceOperationsCommute : Prop :=
  (∀ (i j : Instr) (s : State), isReplace i = true → isReplace j = true →
    runAll [i, j] s = runAll [j, i] s ∧ runAll [i, i] s = exec i s) ∧
  (∀ (p : List Replacement) (s : State), ∃ t, serveAll (p.flatMap Replacement.inputs) s = .next t ∧
    (∀ a r b, p = a ++ r :: b → (∀ x ∈ b, x.instr ≠ r.instr) → r.heldBy t) ∧
    ((∀ x ∈ p, x.instr ≠ .setfc) → t.fc = s.fc) ∧
    ((∀ x ∈ p, x.instr ≠ .setaddrs) →
      t.addr1 = s.addr1 ∧ t.addr2 = s.addr2 ∧ t.addr3 = s.addr3 ∧ t.addr4 = s.addr4) ∧
    ((∀ x ∈ p, x.instr ≠ .setdur) → t.duration = s.duration) ∧
    ((∀ x ∈ p, x.instr ≠ .setseq) → t.seqControl = s.seqControl) ∧
    ((∀ x ∈ p, x.instr ≠ .setcrc) → t.crc = s.crc)) ∧
  (∀ (p q : List Replacement) (s : State), p.Perm q → (p.map Replacement.instr).Nodup →
    ∃ t u, serveAll (p.flatMap Replacement.inputs) s = .next t ∧ serveAll (q.flatMap Replacement.inputs) s = .next u ∧
      t.fc = u.fc ∧ t.duration = u.duration ∧ t.addr1 = u.addr1 ∧ t.addr2 = u.addr2 ∧ t.addr3 = u.addr3 ∧
      t.addr4 = u.addr4 ∧ t.seqControl = u.seqControl ∧ t.payload = u.payload ∧ t.crc = u.crc)

/-- 44_record_replace.md R101: a host read after a replace operation returns the value the operand register held, bit for
bit. -/
def Obligations.ReplaceRoundTrip : Prop :=
  ∀ s : State,
    (∃ t, exec .setfc s = .next t ∧ regImage t .fc = regImage s .argFc) ∧
    (∃ t, exec .setaddrs s = .next t ∧ ∀ ra, regImage t (.addr ra) = regImage s (.argAddr ra)) ∧
    (∃ t, exec .setdur s = .next t ∧ regImage t .duration = regImage s .argU16) ∧
    (∃ t, exec .setseq s = .next t ∧ regImage t .seqControl = regImage s .argU16) ∧
    (∃ t, exec .setcrc s = .next t ∧ regImage t .crc = regImage s .argU16)

/-! ## Rules over all instructions -/

/-- 20_memory.md R43: no instruction writes `BUF`, `LEN` or an operand register; nor `PAYLOAD` (10_state.md R22), nor what
is the model's own. -/
def Obligations.EngineNeverWritesItsInputs : Prop :=
  ∀ (i : Instr) (s t : State), exec i s = .next t →
    t.buf = s.buf ∧ t.len = s.len ∧ t.argFc = s.argFc ∧ t.argU16 = s.argU16 ∧ t.argAddr1 = s.argAddr1 ∧
    t.argAddr2 = s.argAddr2 ∧ t.argAddr3 = s.argAddr3 ∧ t.argAddr4 = s.argAddr4 ∧ t.payload = s.payload ∧
    t.cap = s.cap ∧ t.inputs = s.inputs ∧ t.reply = s.reply ∧ t.draws = s.draws

/-- 10_state.md R19, R23, R24: `BITVAL` is written by `RDBITS` only, the span by `SPAN` and `PARSE` only, `FC` by `RDFC`,
`PARSE` and `SETFC` only. -/
def Obligations.OnlyTheNamedWriters : Prop :=
  ∀ (i : Instr) (s t : State), exec i s = .next t →
    ((∀ w, i ≠ .rdbits w) → t.bitval = s.bitval) ∧
    (i ≠ .span → i ≠ .parse → t.payOff = s.payOff ∧ t.payLen = s.payLen) ∧
    (i ≠ .rdfc → i ≠ .parse → i ≠ .setfc → t.fc = s.fc)

/-- 20_memory.md R36, 10_state.md R15: the only way an instruction stops is at a byte below `LEN` that holds `none`; it
never reads at or above `LEN`. The spec says that the model faults or refuses there: that it faults, and is never refused,
is the model's choice (log 7). -/
def Obligations.OnlyUnwrittenFrameBytesStop : Prop :=
  ∀ (i : Instr) (s : State),
    (∀ e, exec i s = .fault e → ∃ a, a < s.len ∧ s.written a = false ∧ e = .byteHoldsNone a) ∧
    (∀ r, exec i s ≠ .refused r)

/-- 43_assembler.md R93, 70_reset_and_hazards.md R131: with every byte below `LEN` written, every command byte, legal or
not, runs to its end. -/
def Obligations.WrittenFrameCompletes : Prop :=
  ∀ (b : Byte) (s : State), s.frameWritten → ∃ t, runCommand b s = .next t

/-- 60_exceptions.md R108, R112: a failed instruction turns its destinations to `none`, writes `STATUS` and `ERR_OFF`,
and leaves all else, `CUR` included, as it was. -/
def Obligations.FailuresArePrecise : Prop :=
  ∀ (i : Instr) (s t : State), exec i s = .next t → t.status.err = true →
    t = { clearDests (destinations i) s with status := t.status, errOff := t.errOff } ∧ t.cur = s.cur

/-- 60_exceptions.md R114: no command's outcome depends on what `STATUS` and `ERR_OFF` held: an error is not sticky. -/
def Obligations.ErrorsAreNotSticky : Prop :=
  ∀ (b : Byte) (s : State) (st : Status) (e : Nat),
    runCommand b { s with status := st, errOff := e } = runCommand b s

/-- 10_state.md R25, R26, 60_exceptions.md R103, R104, R111: after every command `STATUS` and `ERR_OFF` describe that
command: they are what the command reports by `LEN` and `CUR` before it, `DONE` is 1, `ERR` is 1 exactly when `CODE` is not
`NONE`, and after success `STAGE` is `NONE` and `ERR_OFF` is 0. -/
def Obligations.StatusDescribesLastCommand : Prop :=
  ∀ (b : Byte) (s t : State), runCommand b s = .next t →
    t.status.done = true ∧ (t.status.err = true ↔ t.status.code ≠ .none) ∧
    (t.status.code = .none ↔ t.status.stage = .none) ∧ (t.status.err = false → t.errOff = 0) ∧
    (b ∉ legalCommands → t.status = Status.failed .illegalCommand .cmd ∧ t.errOff = 0) ∧
    (∀ i, decode b = .ok i → (t.status, t.errOff) = commandReport s.len s.cur i)

/-- 60_exceptions.md R103: which instructions raise which condition. -/
def Obligations.ConditionsHaveTheirRaisers : Prop :=
  ∀ (i : Instr) (s t : State), exec i s = .next t →
    t.status.code ≠ .illegalCommand ∧
    (t.status.code = .truncatedFrame → i = .span ∨ (i = .parse ∧ t.status.stage = .payload)) ∧
    (t.status.code = .misalignedCursor →
      (i = .rdfc ∨ (∃ rd, i = .rdu16 rd) ∨ (∃ ra, i = .rdaddr ra) ∨ i = .span) ∧ bitInByte s.cur ≠ 0 ∧
        t.errOff = s.cur) ∧
    (t.status.code = .insufficientData → i ≠ .span ∧ isReplace i = false ∧ t.status.stage ≠ .payload)

/-- 10_state.md R17: an instruction leaves `CUR` where it was or moves it to a place within the frame, `PARSE` to the end
of it from wherever it was, every other one forward; it never wraps. -/
def Obligations.CursorMovesWithinFrame : Prop :=
  ∀ (i : Instr) (s t : State), exec i s = .next t →
    t.cur = s.cur ∨ (t.cur ≤ 8 * s.len ∧ (i ≠ .parse → s.cur < t.cur) ∧ (i = .parse → t.cur = 8 * s.len))

/-- Every step keeps the invariant of the state (00_scope.md R10, 10_state.md R16, R17, R23, R25, R26, 43_assembler.md
R84): memory canonical and below `CAP`, every offset and count within its register, no wrapped span, the fields of
`STATUS` in agreement. -/
def Obligations.StepKeepsInvariant : Prop :=
  ∀ s t : State, s.Inv → step s = .next t → t.Inv

/-- The state after reset meets the invariant, at every capacity. -/
def Obligations.ResetMeetsInvariant : Prop :=
  State.reset.Inv ∧ ∀ cap : Nat, (State.resetFor cap).Inv

/-! ## Reset -/

/-- 10_state.md R34: the state after reset, and that with `LEN = 0` every reading command then fails, `PARSE` at stage
`FC` with offset 0. That a buffer byte is unspecified is an unlisted cell. -/
def Obligations.ResetLeavesTableValues : Prop :=
  (∀ a, Memory.get State.reset.buf a = none) ∧ State.reset.len = 0 ∧ State.reset.cur = 0 ∧
  State.reset.fc = none ∧ State.reset.duration = none ∧ State.reset.addr1 = none ∧ State.reset.addr2 = none ∧
  State.reset.addr3 = none ∧ State.reset.addr4 = none ∧ State.reset.seqControl = none ∧ State.reset.crc = none ∧
  State.reset.payload = .uninterp ∧ State.reset.payOff = none ∧ State.reset.payLen = none ∧ State.reset.bitval = none ∧
  State.reset.status = ⟨false, false, .none, .none⟩ ∧ statusImage State.reset = 0x0000 ∧ State.reset.errOff = 0 ∧
  State.reset.argFc = none ∧ State.reset.argU16 = none ∧ State.reset.argAddr1 = none ∧ State.reset.argAddr2 = none ∧
  State.reset.argAddr3 = none ∧ State.reset.argAddr4 = none ∧
  (∀ i, isReplace i = false → ∃ t, exec i State.reset = .next t ∧ t.status.err = true) ∧
  (∃ t, exec .parse State.reset = .next t ∧ t.status = Status.failed .insufficientData .fc ∧ t.errOff = 0)

/-- 70_reset_and_hazards.md R120: the platform's reset puts the block at the reset values, whatever it held. That the
capacity, the inputs to come and the count of draws stay is the model's choice (log 14). -/
def Obligations.ResetInputRestoresBlock : Prop :=
  ∀ (s : State) (rest : List Input), s.inputs = .reset :: rest →
    step s = .next { State.resetFor s.cap with inputs := rest, draws := s.draws }

/-! ## The host's side -/

/-- 10_state.md R16, R27 (U9): an access is refused exactly when it is one the spec gives no meaning, said in the numbers
of the table. That an index outside the table, a value wider than the register and a window offset at or above `CAP` are
such is log 9. -/
def Obligations.IllFormedAccessIsRefused : Prop :=
  ∀ (s : State) (x : Input) (rest : List Input), s.inputs = x :: rest →
    ((∃ r, step s = .refused r) ↔ x.wellFormed s.cap = false) ∧
    (x.wellFormed s.cap = true ↔
      match x with
      | .write n v =>
        (n = 0x00 ∧ v < 2 ^ 8) ∨ (n = 0x03 ∧ v ≤ s.cap) ∨ (n = 0x04 ∧ v < 2 ^ Config.curWidth s.cap) ∨
          ((n = 0x18 ∨ n = 0x19) ∧ v < 2 ^ 16) ∨ (0x1A ≤ n ∧ n ≤ 0x1D ∧ v < 2 ^ 48)
      | .read n => (0x01 ≤ n ∧ n ≤ 0x10) ∨ (0x18 ≤ n ∧ n ≤ 0x1D)
      | .writeBuf a _ => a < s.cap
      | .readBuf a => a < s.cap
      | .reset => True)

/-- 10_state.md R16, R17, R29: what a host write to `LEN`, `CUR` and the operand registers does. -/
def Obligations.HostWritesRegisters : Prop :=
  ∀ (s : State) (v : Nat) (rest : List Input),
    (s.inputs = .write 0x03 v :: rest → v ≤ s.cap → step s = .next { s with inputs := rest, len := v }) ∧
    (s.inputs = .write 0x04 v :: rest → v < 2 ^ Config.curWidth s.cap →
      step s = .next { s with inputs := rest, cur := v }) ∧
    (s.inputs = .write 0x18 v :: rest → v < 2 ^ 16 →
      step s = .next { s with inputs := rest, argFc := some (BitVec.ofNat 16 v) }) ∧
    (s.inputs = .write 0x19 v :: rest → v < 2 ^ 16 →
      step s = .next { s with inputs := rest, argU16 := some (BitVec.ofNat 16 v) }) ∧
    (∀ ra, s.inputs = .write (HostReg.argAddr ra).index v :: rest → v < 2 ^ 48 →
      ∃ t, step s = .next t ∧ regImage t (.argAddr ra) = some v ∧
        ∃ x, t = setArgAddr ra x { s with inputs := rest })

/-- 70_reset_and_hazards.md R131, 10_state.md R19, R21, R22, R27, 00_scope.md R11: a host read of a register that holds a
value gives that value as a number and changes nothing in the block. Of one that holds `none` it stops; that it faults, and
is not refused, is the model's choice (log 5, log 6). -/
def Obligations.HostReadsRegisters : Prop :=
  ∀ (s : State) (r : HostReg) (rest : List Input) (shown : Option Nat),
    s.inputs = .read r.index :: rest → r ≠ .cmd →
    shown = (match r with
      | .cmd => none
      | .status => some (statusImage s).toNat
      | .errOff => some s.errOff
      | .len => some s.len
      | .cur => some s.cur
      | .bitval => s.bitval.map BitVec.toNat
      | .payOff => s.payOff
      | .payLen => s.payLen
      | .fc => s.fc.map FrameControl.number
      | .duration => s.duration.map BitVec.toNat
      | .addr .addr1 => s.addr1.map Address.number
      | .addr .addr2 => s.addr2.map Address.number
      | .addr .addr3 => s.addr3.map Address.number
      | .addr .addr4 => s.addr4.map Address.number
      | .seqControl => s.seqControl.map BitVec.toNat
      | .crc => s.crc.map BitVec.toNat
      | .payload => some 0
      | .argFc => s.argFc.map BitVec.toNat
      | .argU16 => s.argU16.map BitVec.toNat
      | .argAddr .addr1 => s.argAddr1.map Address.number
      | .argAddr .addr2 => s.argAddr2.map Address.number
      | .argAddr .addr3 => s.argAddr3.map Address.number
      | .argAddr .addr4 => s.argAddr4.map Address.number) →
    (∀ v, shown = some v → step s = .next { s with inputs := rest, reply := some v }) ∧
    (shown = none → step s = .fault (.registerHoldsNone r)) ∧
    shown = regImage s r

/-- 10_state.md R15: a host write to the buffer window below `CAP` puts the byte there, leaves every other byte and
register, and a read of it then gives it back. -/
def Obligations.HostWritesBuffer : Prop :=
  ∀ (s : State) (a : Nat) (b : Byte) (rest : List Input), s.inputs = .writeBuf a b :: rest → a < s.cap →
    ∃ t, step s = .next t ∧ Memory.get t.buf a = some b ∧ (∀ x, x ≠ a → Memory.get t.buf x = Memory.get s.buf x) ∧
      t = { s with inputs := rest, buf := t.buf } ∧
      ∀ more, step { t with inputs := .readBuf a :: more } = .next { t with inputs := more, reply := some b.toNat }

/-- 93_implementation_defined.md U6, U11: a host read of an unwritten window byte stops below `LEN` and gives any value,
changing nothing in the block, at and above it. That it faults below `LEN`, where U6 allows a fault or a refusal, is the
model's choice (log 7). The value at and above `LEN` is free: nothing is said of it (log 8). -/
def Obligations.HostReadsUnwrittenByte : Prop :=
  ∀ (s : State) (a : Nat) (rest : List Input), s.inputs = .readBuf a :: rest → a < s.cap → s.written a = false →
    (a < s.len → step s = .fault (.byteHoldsNone a)) ∧
    (s.len ≤ a → ∃ b : Byte, step s = .next { s with inputs := rest, reply := some b.toNat, draws := s.draws + 1 })

/-- 10_state.md R25, 60_exceptions.md R103, R104: the fields of `STATUS` as the host reads it, the numbers of the codes and
of the stages, and what the two computed fields mean. -/
def Obligations.StatusImageFields : Prop :=
  ∀ s : State,
    (statusImage s).getLsbD 0 = s.status.done ∧ (statusImage s).getLsbD 1 = s.status.err ∧
    (statusImage s).extractLsb' 2 2 = 0 ∧ (statusImage s).extractLsb' 14 2 = 0 ∧
    (statusImage s).extractLsb' 4 4 = (match s.status.code with
      | .none => 0
      | .insufficientData => 1
      | .truncatedFrame => 2
      | .illegalCommand => 3
      | .misalignedCursor => 4) ∧
    (statusImage s).extractLsb' 8 4 = (match s.status.stage with
      | .none => 0
      | .fc => 1
      | .duration => 2
      | .addr1 => 3
      | .addr2 => 4
      | .addr3 => 5
      | .addr4 => 6
      | .seqControl => 7
      | .payload => 8
      | .crc => 9
      | .bits => 10
      | .cmd => 11) ∧
    ((statusImage s).getLsbD 12 = true ↔
      s.fc ≠ none ∧ s.duration ≠ none ∧ s.addr1 ≠ none ∧ s.addr2 ≠ none ∧ s.addr3 ≠ none ∧ s.addr4 ≠ none ∧
        s.seqControl ≠ none ∧ s.crc ≠ none) ∧
    ((statusImage s).getLsbD 13 = true ↔ s.payOff ≠ none ∧ s.payLen ≠ none)

/-- 10_state.md R27, 00_scope.md R9: the host's register table in its own numbers: each register's index, width, whether
the host may read it and whether it may write it; every register stands at its index and no index has two; the reserved
indices have none; and the two widths that follow from `CAP`. -/
def Obligations.RegisterTableIsOneToOne : Prop :=
  (∀ (cap : Nat) (r : HostReg),
    (r.index, r.width cap, r.readable, r.writable) = (match r with
      | .cmd => (0x00, 8, false, true)
      | .status => (0x01, 16, true, false)
      | .errOff => (0x02, Config.curWidth cap, true, false)
      | .len => (0x03, Config.addrWidth cap, true, true)
      | .cur => (0x04, Config.curWidth cap, true, true)
      | .bitval => (0x05, 4, true, false)
      | .payOff => (0x06, Config.addrWidth cap, true, false)
      | .payLen => (0x07, Config.addrWidth cap, true, false)
      | .fc => (0x08, 16, true, false)
      | .duration => (0x09, 16, true, false)
      | .addr .addr1 => (0x0A, 48, true, false)
      | .addr .addr2 => (0x0B, 48, true, false)
      | .addr .addr3 => (0x0C, 48, true, false)
      | .addr .addr4 => (0x0D, 48, true, false)
      | .seqControl => (0x0E, 16, true, false)
      | .crc => (0x0F, 16, true, false)
      | .payload => (0x10, 1, true, false)
      | .argFc => (0x18, 16, true, true)
      | .argU16 => (0x19, 16, true, true)
      | .argAddr .addr1 => (0x1A, 48, true, true)
      | .argAddr .addr2 => (0x1B, 48, true, true)
      | .argAddr .addr3 => (0x1C, 48, true, true)
      | .argAddr .addr4 => (0x1D, 48, true, true))) ∧
  (∀ (n : Nat) (r : HostReg), hostRegAt n = some r ↔ r.index = n) ∧
  (∀ n : Nat, (0x11 ≤ n ∧ n ≤ 0x17) ∨ 0x1E ≤ n → hostRegAt n = none) ∧
  (∀ cap : Nat, cap < 2 ^ Config.addrWidth cap ∧ (∀ m, cap < 2 ^ m → Config.addrWidth cap ≤ m) ∧
    Config.curWidth cap = Config.addrWidth cap + 3)

/-! ## The engine's stop -/

/-- 20_memory.md R36, 93_implementation_defined.md U6: where the tests of an operation pass and a byte it reads holds `none`,
the operation stops at the first such byte and gives no value for it. That it faults, where the spec allows a fault or a
refusal, is the model's choice (log 7). -/
def Obligations.UnwrittenByteStopsTheRead : Prop :=
  (∀ (w : Width) (s : State) (k : Nat), s.cur + widthBits w ≤ 8 * s.len → k < widthBits w →
    s.written ((s.cur + k) / 8) = false → (∀ j, j < k → s.written ((s.cur + j) / 8) = true) →
      exec (.rdbits w) s = .fault (.byteHoldsNone ((s.cur + k) / 8))) ∧
  (∀ (s : State) (k : Nat), s.cur % 8 = 0 → s.cur + 16 ≤ 8 * s.len → k < 2 → s.written (s.cur / 8 + k) = false →
    s.writtenFrom (s.cur / 8) k →
      exec .rdfc s = .fault (.byteHoldsNone (s.cur / 8 + k)) ∧
      ∀ rd, exec (.rdu16 rd) s = .fault (.byteHoldsNone (s.cur / 8 + k))) ∧
  (∀ (s : State) (k : Nat), s.cur % 8 = 0 → s.cur + 48 ≤ 8 * s.len → k < 6 → s.written (s.cur / 8 + k) = false →
    s.writtenFrom (s.cur / 8) k →
      ∀ ra, exec (.rdaddr ra) s = .fault (.byteHoldsNone (s.cur / 8 + k))) ∧
  (∀ (s : State) (a : Nat), 32 ≤ s.len → (a < 30 ∨ (s.len - 2 ≤ a ∧ a < s.len)) → s.written a = false →
    (∀ b, b < a → (b < 30 ∨ s.len - 2 ≤ b) → s.written b = true) →
      exec .parse s = .fault (.byteHoldsNone a))
end

