-- ==== Sys2Proof/Laws/State.lean ====
section
/-! SUPPORT. One lemma per field for each named update of the state, so that no later proof unfolds one. -/

namespace Sys2Proof.Machine

/-! `succeed` writes `STATUS` and `ERR_OFF`. -/

@[simp] theorem succeed_cap (s : State) : (succeed s).cap = s.cap := rfl
@[simp] theorem succeed_buf (s : State) : (succeed s).buf = s.buf := rfl
@[simp] theorem succeed_len (s : State) : (succeed s).len = s.len := rfl
@[simp] theorem succeed_cur (s : State) : (succeed s).cur = s.cur := rfl
@[simp] theorem succeed_fc (s : State) : (succeed s).fc = s.fc := rfl
@[simp] theorem succeed_duration (s : State) : (succeed s).duration = s.duration := rfl
@[simp] theorem succeed_addr1 (s : State) : (succeed s).addr1 = s.addr1 := rfl
@[simp] theorem succeed_addr2 (s : State) : (succeed s).addr2 = s.addr2 := rfl
@[simp] theorem succeed_addr3 (s : State) : (succeed s).addr3 = s.addr3 := rfl
@[simp] theorem succeed_addr4 (s : State) : (succeed s).addr4 = s.addr4 := rfl
@[simp] theorem succeed_seqControl (s : State) : (succeed s).seqControl = s.seqControl := rfl
@[simp] theorem succeed_payload (s : State) : (succeed s).payload = s.payload := rfl
@[simp] theorem succeed_crc (s : State) : (succeed s).crc = s.crc := rfl
@[simp] theorem succeed_payOff (s : State) : (succeed s).payOff = s.payOff := rfl
@[simp] theorem succeed_payLen (s : State) : (succeed s).payLen = s.payLen := rfl
@[simp] theorem succeed_bitval (s : State) : (succeed s).bitval = s.bitval := rfl
@[simp] theorem succeed_status (s : State) : (succeed s).status = ⟨true, false, .none, .none⟩ := rfl
@[simp] theorem succeed_errOff (s : State) : (succeed s).errOff = 0 := rfl
@[simp] theorem succeed_argFc (s : State) : (succeed s).argFc = s.argFc := rfl
@[simp] theorem succeed_argU16 (s : State) : (succeed s).argU16 = s.argU16 := rfl
@[simp] theorem succeed_argAddr1 (s : State) : (succeed s).argAddr1 = s.argAddr1 := rfl
@[simp] theorem succeed_argAddr2 (s : State) : (succeed s).argAddr2 = s.argAddr2 := rfl
@[simp] theorem succeed_argAddr3 (s : State) : (succeed s).argAddr3 = s.argAddr3 := rfl
@[simp] theorem succeed_argAddr4 (s : State) : (succeed s).argAddr4 = s.argAddr4 := rfl
@[simp] theorem succeed_inputs (s : State) : (succeed s).inputs = s.inputs := rfl
@[simp] theorem succeed_reply (s : State) : (succeed s).reply = s.reply := rfl
@[simp] theorem succeed_draws (s : State) : (succeed s).draws = s.draws := rfl

/-! `setU16` writes one of three registers. -/

@[simp] theorem setU16_cap (rd : U16Reg) (v : Option Word) (s : State) : (setU16 rd v s).cap = s.cap := by
  cases rd <;> rfl
@[simp] theorem setU16_buf (rd : U16Reg) (v : Option Word) (s : State) : (setU16 rd v s).buf = s.buf := by
  cases rd <;> rfl
@[simp] theorem setU16_len (rd : U16Reg) (v : Option Word) (s : State) : (setU16 rd v s).len = s.len := by
  cases rd <;> rfl
@[simp] theorem setU16_cur (rd : U16Reg) (v : Option Word) (s : State) : (setU16 rd v s).cur = s.cur := by
  cases rd <;> rfl
@[simp] theorem setU16_fc (rd : U16Reg) (v : Option Word) (s : State) : (setU16 rd v s).fc = s.fc := by
  cases rd <;> rfl
@[simp] theorem setU16_addr1 (rd : U16Reg) (v : Option Word) (s : State) : (setU16 rd v s).addr1 = s.addr1 := by
  cases rd <;> rfl
@[simp] theorem setU16_addr2 (rd : U16Reg) (v : Option Word) (s : State) : (setU16 rd v s).addr2 = s.addr2 := by
  cases rd <;> rfl
@[simp] theorem setU16_addr3 (rd : U16Reg) (v : Option Word) (s : State) : (setU16 rd v s).addr3 = s.addr3 := by
  cases rd <;> rfl
@[simp] theorem setU16_addr4 (rd : U16Reg) (v : Option Word) (s : State) : (setU16 rd v s).addr4 = s.addr4 := by
  cases rd <;> rfl
@[simp] theorem setU16_payload (rd : U16Reg) (v : Option Word) (s : State) : (setU16 rd v s).payload = s.payload := by
  cases rd <;> rfl
@[simp] theorem setU16_payOff (rd : U16Reg) (v : Option Word) (s : State) : (setU16 rd v s).payOff = s.payOff := by
  cases rd <;> rfl
@[simp] theorem setU16_payLen (rd : U16Reg) (v : Option Word) (s : State) : (setU16 rd v s).payLen = s.payLen := by
  cases rd <;> rfl
@[simp] theorem setU16_bitval (rd : U16Reg) (v : Option Word) (s : State) : (setU16 rd v s).bitval = s.bitval := by
  cases rd <;> rfl
@[simp] theorem setU16_status (rd : U16Reg) (v : Option Word) (s : State) : (setU16 rd v s).status = s.status := by
  cases rd <;> rfl
@[simp] theorem setU16_errOff (rd : U16Reg) (v : Option Word) (s : State) : (setU16 rd v s).errOff = s.errOff := by
  cases rd <;> rfl
@[simp] theorem setU16_argFc (rd : U16Reg) (v : Option Word) (s : State) : (setU16 rd v s).argFc = s.argFc := by
  cases rd <;> rfl
@[simp] theorem setU16_argU16 (rd : U16Reg) (v : Option Word) (s : State) : (setU16 rd v s).argU16 = s.argU16 := by
  cases rd <;> rfl
@[simp] theorem setU16_argAddr1 (rd : U16Reg) (v : Option Word) (s : State) : (setU16 rd v s).argAddr1 = s.argAddr1 := by
  cases rd <;> rfl
@[simp] theorem setU16_argAddr2 (rd : U16Reg) (v : Option Word) (s : State) : (setU16 rd v s).argAddr2 = s.argAddr2 := by
  cases rd <;> rfl
@[simp] theorem setU16_argAddr3 (rd : U16Reg) (v : Option Word) (s : State) : (setU16 rd v s).argAddr3 = s.argAddr3 := by
  cases rd <;> rfl
@[simp] theorem setU16_argAddr4 (rd : U16Reg) (v : Option Word) (s : State) : (setU16 rd v s).argAddr4 = s.argAddr4 := by
  cases rd <;> rfl
@[simp] theorem setU16_inputs (rd : U16Reg) (v : Option Word) (s : State) : (setU16 rd v s).inputs = s.inputs := by
  cases rd <;> rfl
@[simp] theorem setU16_reply (rd : U16Reg) (v : Option Word) (s : State) : (setU16 rd v s).reply = s.reply := by
  cases rd <;> rfl
@[simp] theorem setU16_draws (rd : U16Reg) (v : Option Word) (s : State) : (setU16 rd v s).draws = s.draws := by
  cases rd <;> rfl

@[simp] theorem getU16_setU16 (r rd : U16Reg) (v : Option Word) (s : State) :
    getU16 r (setU16 rd v s) = if r = rd then v else getU16 r s := by
  cases r <;> cases rd <;> rfl

@[simp] theorem getAddr_setU16 (r : AddrReg) (rd : U16Reg) (v : Option Word) (s : State) :
    getAddr r (setU16 rd v s) = getAddr r s := by
  cases r <;> cases rd <;> rfl

/-! `setAddr` writes one of four registers. -/

@[simp] theorem setAddr_cap (ra : AddrReg) (v : Option Address) (s : State) : (setAddr ra v s).cap = s.cap := by
  cases ra <;> rfl
@[simp] theorem setAddr_buf (ra : AddrReg) (v : Option Address) (s : State) : (setAddr ra v s).buf = s.buf := by
  cases ra <;> rfl
@[simp] theorem setAddr_len (ra : AddrReg) (v : Option Address) (s : State) : (setAddr ra v s).len = s.len := by
  cases ra <;> rfl
@[simp] theorem setAddr_cur (ra : AddrReg) (v : Option Address) (s : State) : (setAddr ra v s).cur = s.cur := by
  cases ra <;> rfl
@[simp] theorem setAddr_fc (ra : AddrReg) (v : Option Address) (s : State) : (setAddr ra v s).fc = s.fc := by
  cases ra <;> rfl
@[simp] theorem setAddr_duration (ra : AddrReg) (v : Option Address) (s : State) : (setAddr ra v s).duration = s.duration := by
  cases ra <;> rfl
@[simp] theorem setAddr_seqControl (ra : AddrReg) (v : Option Address) (s : State) : (setAddr ra v s).seqControl = s.seqControl := by
  cases ra <;> rfl
@[simp] theorem setAddr_payload (ra : AddrReg) (v : Option Address) (s : State) : (setAddr ra v s).payload = s.payload := by
  cases ra <;> rfl
@[simp] theorem setAddr_crc (ra : AddrReg) (v : Option Address) (s : State) : (setAddr ra v s).crc = s.crc := by
  cases ra <;> rfl
@[simp] theorem setAddr_payOff (ra : AddrReg) (v : Option Address) (s : State) : (setAddr ra v s).payOff = s.payOff := by
  cases ra <;> rfl
@[simp] theorem setAddr_payLen (ra : AddrReg) (v : Option Address) (s : State) : (setAddr ra v s).payLen = s.payLen := by
  cases ra <;> rfl
@[simp] theorem setAddr_bitval (ra : AddrReg) (v : Option Address) (s : State) : (setAddr ra v s).bitval = s.bitval := by
  cases ra <;> rfl
@[simp] theorem setAddr_status (ra : AddrReg) (v : Option Address) (s : State) : (setAddr ra v s).status = s.status := by
  cases ra <;> rfl
@[simp] theorem setAddr_errOff (ra : AddrReg) (v : Option Address) (s : State) : (setAddr ra v s).errOff = s.errOff := by
  cases ra <;> rfl
@[simp] theorem setAddr_argFc (ra : AddrReg) (v : Option Address) (s : State) : (setAddr ra v s).argFc = s.argFc := by
  cases ra <;> rfl
@[simp] theorem setAddr_argU16 (ra : AddrReg) (v : Option Address) (s : State) : (setAddr ra v s).argU16 = s.argU16 := by
  cases ra <;> rfl
@[simp] theorem setAddr_argAddr1 (ra : AddrReg) (v : Option Address) (s : State) : (setAddr ra v s).argAddr1 = s.argAddr1 := by
  cases ra <;> rfl
@[simp] theorem setAddr_argAddr2 (ra : AddrReg) (v : Option Address) (s : State) : (setAddr ra v s).argAddr2 = s.argAddr2 := by
  cases ra <;> rfl
@[simp] theorem setAddr_argAddr3 (ra : AddrReg) (v : Option Address) (s : State) : (setAddr ra v s).argAddr3 = s.argAddr3 := by
  cases ra <;> rfl
@[simp] theorem setAddr_argAddr4 (ra : AddrReg) (v : Option Address) (s : State) : (setAddr ra v s).argAddr4 = s.argAddr4 := by
  cases ra <;> rfl
@[simp] theorem setAddr_inputs (ra : AddrReg) (v : Option Address) (s : State) : (setAddr ra v s).inputs = s.inputs := by
  cases ra <;> rfl
@[simp] theorem setAddr_reply (ra : AddrReg) (v : Option Address) (s : State) : (setAddr ra v s).reply = s.reply := by
  cases ra <;> rfl
@[simp] theorem setAddr_draws (ra : AddrReg) (v : Option Address) (s : State) : (setAddr ra v s).draws = s.draws := by
  cases ra <;> rfl

@[simp] theorem getAddr_setAddr (r ra : AddrReg) (v : Option Address) (s : State) :
    getAddr r (setAddr ra v s) = if r = ra then v else getAddr r s := by
  cases r <;> cases ra <;> rfl

@[simp] theorem getU16_setAddr (r : U16Reg) (ra : AddrReg) (v : Option Address) (s : State) :
    getU16 r (setAddr ra v s) = getU16 r s := by
  cases r <;> cases ra <;> rfl

/-! `setArgAddr` writes one of four operand registers. -/

@[simp] theorem setArgAddr_cap (ra : AddrReg) (x : Address) (s : State) : (setArgAddr ra x s).cap = s.cap := by
  cases ra <;> rfl
@[simp] theorem setArgAddr_buf (ra : AddrReg) (x : Address) (s : State) : (setArgAddr ra x s).buf = s.buf := by
  cases ra <;> rfl
@[simp] theorem setArgAddr_len (ra : AddrReg) (x : Address) (s : State) : (setArgAddr ra x s).len = s.len := by
  cases ra <;> rfl
@[simp] theorem setArgAddr_cur (ra : AddrReg) (x : Address) (s : State) : (setArgAddr ra x s).cur = s.cur := by
  cases ra <;> rfl
@[simp] theorem setArgAddr_fc (ra : AddrReg) (x : Address) (s : State) : (setArgAddr ra x s).fc = s.fc := by
  cases ra <;> rfl
@[simp] theorem setArgAddr_duration (ra : AddrReg) (x : Address) (s : State) : (setArgAddr ra x s).duration = s.duration := by
  cases ra <;> rfl
@[simp] theorem setArgAddr_addr1 (ra : AddrReg) (x : Address) (s : State) : (setArgAddr ra x s).addr1 = s.addr1 := by
  cases ra <;> rfl
@[simp] theorem setArgAddr_addr2 (ra : AddrReg) (x : Address) (s : State) : (setArgAddr ra x s).addr2 = s.addr2 := by
  cases ra <;> rfl
@[simp] theorem setArgAddr_addr3 (ra : AddrReg) (x : Address) (s : State) : (setArgAddr ra x s).addr3 = s.addr3 := by
  cases ra <;> rfl
@[simp] theorem setArgAddr_addr4 (ra : AddrReg) (x : Address) (s : State) : (setArgAddr ra x s).addr4 = s.addr4 := by
  cases ra <;> rfl
@[simp] theorem setArgAddr_seqControl (ra : AddrReg) (x : Address) (s : State) : (setArgAddr ra x s).seqControl = s.seqControl := by
  cases ra <;> rfl
@[simp] theorem setArgAddr_payload (ra : AddrReg) (x : Address) (s : State) : (setArgAddr ra x s).payload = s.payload := by
  cases ra <;> rfl
@[simp] theorem setArgAddr_crc (ra : AddrReg) (x : Address) (s : State) : (setArgAddr ra x s).crc = s.crc := by
  cases ra <;> rfl
@[simp] theorem setArgAddr_payOff (ra : AddrReg) (x : Address) (s : State) : (setArgAddr ra x s).payOff = s.payOff := by
  cases ra <;> rfl
@[simp] theorem setArgAddr_payLen (ra : AddrReg) (x : Address) (s : State) : (setArgAddr ra x s).payLen = s.payLen := by
  cases ra <;> rfl
@[simp] theorem setArgAddr_bitval (ra : AddrReg) (x : Address) (s : State) : (setArgAddr ra x s).bitval = s.bitval := by
  cases ra <;> rfl
@[simp] theorem setArgAddr_status (ra : AddrReg) (x : Address) (s : State) : (setArgAddr ra x s).status = s.status := by
  cases ra <;> rfl
@[simp] theorem setArgAddr_errOff (ra : AddrReg) (x : Address) (s : State) : (setArgAddr ra x s).errOff = s.errOff := by
  cases ra <;> rfl
@[simp] theorem setArgAddr_argFc (ra : AddrReg) (x : Address) (s : State) : (setArgAddr ra x s).argFc = s.argFc := by
  cases ra <;> rfl
@[simp] theorem setArgAddr_argU16 (ra : AddrReg) (x : Address) (s : State) : (setArgAddr ra x s).argU16 = s.argU16 := by
  cases ra <;> rfl
@[simp] theorem setArgAddr_inputs (ra : AddrReg) (x : Address) (s : State) : (setArgAddr ra x s).inputs = s.inputs := by
  cases ra <;> rfl
@[simp] theorem setArgAddr_reply (ra : AddrReg) (x : Address) (s : State) : (setArgAddr ra x s).reply = s.reply := by
  cases ra <;> rfl
@[simp] theorem setArgAddr_draws (ra : AddrReg) (x : Address) (s : State) : (setArgAddr ra x s).draws = s.draws := by
  cases ra <;> rfl

/-! Clearing destinations leaves every field that is no destination. -/

@[simp] theorem clearDest_cap (s : State) (d : Dest) : (clearDest s d).cap = s.cap := by
  cases d <;> simp [clearDest]
@[simp] theorem clearDest_buf (s : State) (d : Dest) : (clearDest s d).buf = s.buf := by
  cases d <;> simp [clearDest]
@[simp] theorem clearDest_len (s : State) (d : Dest) : (clearDest s d).len = s.len := by
  cases d <;> simp [clearDest]
@[simp] theorem clearDest_cur (s : State) (d : Dest) : (clearDest s d).cur = s.cur := by
  cases d <;> simp [clearDest]
@[simp] theorem clearDest_payload (s : State) (d : Dest) : (clearDest s d).payload = s.payload := by
  cases d <;> simp [clearDest]
@[simp] theorem clearDest_status (s : State) (d : Dest) : (clearDest s d).status = s.status := by
  cases d <;> simp [clearDest]
@[simp] theorem clearDest_errOff (s : State) (d : Dest) : (clearDest s d).errOff = s.errOff := by
  cases d <;> simp [clearDest]
@[simp] theorem clearDest_argFc (s : State) (d : Dest) : (clearDest s d).argFc = s.argFc := by
  cases d <;> simp [clearDest]
@[simp] theorem clearDest_argU16 (s : State) (d : Dest) : (clearDest s d).argU16 = s.argU16 := by
  cases d <;> simp [clearDest]
@[simp] theorem clearDest_argAddr1 (s : State) (d : Dest) : (clearDest s d).argAddr1 = s.argAddr1 := by
  cases d <;> simp [clearDest]
@[simp] theorem clearDest_argAddr2 (s : State) (d : Dest) : (clearDest s d).argAddr2 = s.argAddr2 := by
  cases d <;> simp [clearDest]
@[simp] theorem clearDest_argAddr3 (s : State) (d : Dest) : (clearDest s d).argAddr3 = s.argAddr3 := by
  cases d <;> simp [clearDest]
@[simp] theorem clearDest_argAddr4 (s : State) (d : Dest) : (clearDest s d).argAddr4 = s.argAddr4 := by
  cases d <;> simp [clearDest]
@[simp] theorem clearDest_inputs (s : State) (d : Dest) : (clearDest s d).inputs = s.inputs := by
  cases d <;> simp [clearDest]
@[simp] theorem clearDest_reply (s : State) (d : Dest) : (clearDest s d).reply = s.reply := by
  cases d <;> simp [clearDest]
@[simp] theorem clearDest_draws (s : State) (d : Dest) : (clearDest s d).draws = s.draws := by
  cases d <;> simp [clearDest]

@[simp] theorem clearDests_cap (ds : List Dest) (s : State) : (clearDests ds s).cap = s.cap := by
  unfold clearDests; induction ds generalizing s with
  | nil => rfl
  | cons d ds ih => rw [List.foldl_cons, ih, clearDest_cap]
@[simp] theorem clearDests_buf (ds : List Dest) (s : State) : (clearDests ds s).buf = s.buf := by
  unfold clearDests; induction ds generalizing s with
  | nil => rfl
  | cons d ds ih => rw [List.foldl_cons, ih, clearDest_buf]
@[simp] theorem clearDests_len (ds : List Dest) (s : State) : (clearDests ds s).len = s.len := by
  unfold clearDests; induction ds generalizing s with
  | nil => rfl
  | cons d ds ih => rw [List.foldl_cons, ih, clearDest_len]
@[simp] theorem clearDests_cur (ds : List Dest) (s : State) : (clearDests ds s).cur = s.cur := by
  unfold clearDests; induction ds generalizing s with
  | nil => rfl
  | cons d ds ih => rw [List.foldl_cons, ih, clearDest_cur]
@[simp] theorem clearDests_payload (ds : List Dest) (s : State) : (clearDests ds s).payload = s.payload := by
  unfold clearDests; induction ds generalizing s with
  | nil => rfl
  | cons d ds ih => rw [List.foldl_cons, ih, clearDest_payload]
@[simp] theorem clearDests_status (ds : List Dest) (s : State) : (clearDests ds s).status = s.status := by
  unfold clearDests; induction ds generalizing s with
  | nil => rfl
  | cons d ds ih => rw [List.foldl_cons, ih, clearDest_status]
@[simp] theorem clearDests_errOff (ds : List Dest) (s : State) : (clearDests ds s).errOff = s.errOff := by
  unfold clearDests; induction ds generalizing s with
  | nil => rfl
  | cons d ds ih => rw [List.foldl_cons, ih, clearDest_errOff]
@[simp] theorem clearDests_argFc (ds : List Dest) (s : State) : (clearDests ds s).argFc = s.argFc := by
  unfold clearDests; induction ds generalizing s with
  | nil => rfl
  | cons d ds ih => rw [List.foldl_cons, ih, clearDest_argFc]
@[simp] theorem clearDests_argU16 (ds : List Dest) (s : State) : (clearDests ds s).argU16 = s.argU16 := by
  unfold clearDests; induction ds generalizing s with
  | nil => rfl
  | cons d ds ih => rw [List.foldl_cons, ih, clearDest_argU16]
@[simp] theorem clearDests_argAddr1 (ds : List Dest) (s : State) : (clearDests ds s).argAddr1 = s.argAddr1 := by
  unfold clearDests; induction ds generalizing s with
  | nil => rfl
  | cons d ds ih => rw [List.foldl_cons, ih, clearDest_argAddr1]
@[simp] theorem clearDests_argAddr2 (ds : List Dest) (s : State) : (clearDests ds s).argAddr2 = s.argAddr2 := by
  unfold clearDests; induction ds generalizing s with
  | nil => rfl
  | cons d ds ih => rw [List.foldl_cons, ih, clearDest_argAddr2]
@[simp] theorem clearDests_argAddr3 (ds : List Dest) (s : State) : (clearDests ds s).argAddr3 = s.argAddr3 := by
  unfold clearDests; induction ds generalizing s with
  | nil => rfl
  | cons d ds ih => rw [List.foldl_cons, ih, clearDest_argAddr3]
@[simp] theorem clearDests_argAddr4 (ds : List Dest) (s : State) : (clearDests ds s).argAddr4 = s.argAddr4 := by
  unfold clearDests; induction ds generalizing s with
  | nil => rfl
  | cons d ds ih => rw [List.foldl_cons, ih, clearDest_argAddr4]
@[simp] theorem clearDests_inputs (ds : List Dest) (s : State) : (clearDests ds s).inputs = s.inputs := by
  unfold clearDests; induction ds generalizing s with
  | nil => rfl
  | cons d ds ih => rw [List.foldl_cons, ih, clearDest_inputs]
@[simp] theorem clearDests_reply (ds : List Dest) (s : State) : (clearDests ds s).reply = s.reply := by
  unfold clearDests; induction ds generalizing s with
  | nil => rfl
  | cons d ds ih => rw [List.foldl_cons, ih, clearDest_reply]
@[simp] theorem clearDests_draws (ds : List Dest) (s : State) : (clearDests ds s).draws = s.draws := by
  unfold clearDests; induction ds generalizing s with
  | nil => rfl
  | cons d ds ih => rw [List.foldl_cons, ih, clearDest_draws]

/-! `raise` keeps every field that is no destination but `STATUS` and `ERR_OFF`, `CUR` among them. -/

@[simp] theorem raise_cap (ds : List Dest) (f : Failure) (s : State) : (raise ds f s).cap = s.cap := clearDests_cap ds s
@[simp] theorem raise_buf (ds : List Dest) (f : Failure) (s : State) : (raise ds f s).buf = s.buf := clearDests_buf ds s
@[simp] theorem raise_len (ds : List Dest) (f : Failure) (s : State) : (raise ds f s).len = s.len := clearDests_len ds s
@[simp] theorem raise_cur (ds : List Dest) (f : Failure) (s : State) : (raise ds f s).cur = s.cur := clearDests_cur ds s
@[simp] theorem raise_payload (ds : List Dest) (f : Failure) (s : State) : (raise ds f s).payload = s.payload := clearDests_payload ds s
@[simp] theorem raise_status (ds : List Dest) (f : Failure) (s : State) : (raise ds f s).status = ⟨true, true, f.cond.code, f.stage⟩ := rfl
@[simp] theorem raise_errOff (ds : List Dest) (f : Failure) (s : State) : (raise ds f s).errOff = f.off := rfl
@[simp] theorem raise_argFc (ds : List Dest) (f : Failure) (s : State) : (raise ds f s).argFc = s.argFc := clearDests_argFc ds s
@[simp] theorem raise_argU16 (ds : List Dest) (f : Failure) (s : State) : (raise ds f s).argU16 = s.argU16 := clearDests_argU16 ds s
@[simp] theorem raise_argAddr1 (ds : List Dest) (f : Failure) (s : State) : (raise ds f s).argAddr1 = s.argAddr1 := clearDests_argAddr1 ds s
@[simp] theorem raise_argAddr2 (ds : List Dest) (f : Failure) (s : State) : (raise ds f s).argAddr2 = s.argAddr2 := clearDests_argAddr2 ds s
@[simp] theorem raise_argAddr3 (ds : List Dest) (f : Failure) (s : State) : (raise ds f s).argAddr3 = s.argAddr3 := clearDests_argAddr3 ds s
@[simp] theorem raise_argAddr4 (ds : List Dest) (f : Failure) (s : State) : (raise ds f s).argAddr4 = s.argAddr4 := clearDests_argAddr4 ds s
@[simp] theorem raise_inputs (ds : List Dest) (f : Failure) (s : State) : (raise ds f s).inputs = s.inputs := clearDests_inputs ds s
@[simp] theorem raise_reply (ds : List Dest) (f : Failure) (s : State) : (raise ds f s).reply = s.reply := clearDests_reply ds s
@[simp] theorem raise_draws (ds : List Dest) (f : Failure) (s : State) : (raise ds f s).draws = s.draws := clearDests_draws ds s

/-! The destinations of each operation, cleared, written out once. -/

theorem raise_rdbits (w : Width) (f : Failure) (s : State) :
    raise (destinations (.rdbits w)) f s =
      { s with bitval := none, status := ⟨true, true, f.cond.code, f.stage⟩, errOff := f.off } := rfl

theorem raise_rdfc (f : Failure) (s : State) :
    raise (destinations .rdfc) f s =
      { s with fc := none, status := ⟨true, true, f.cond.code, f.stage⟩, errOff := f.off } := rfl

theorem raise_rdu16 (rd : U16Reg) (f : Failure) (s : State) :
    raise (destinations (.rdu16 rd)) f s =
      { setU16 rd none s with status := ⟨true, true, f.cond.code, f.stage⟩, errOff := f.off } := rfl

theorem raise_rdaddr (ra : AddrReg) (f : Failure) (s : State) :
    raise (destinations (.rdaddr ra)) f s =
      { setAddr ra none s with status := ⟨true, true, f.cond.code, f.stage⟩, errOff := f.off } := rfl

theorem raise_span (f : Failure) (s : State) :
    raise (destinations .span) f s =
      { s with payOff := none, payLen := none, status := ⟨true, true, f.cond.code, f.stage⟩, errOff := f.off } := by
  simp only [raise, destinations, clearDests, List.foldl, clearDest]

theorem raise_parse (f : Failure) (s : State) :
    raise (destinations .parse) f s =
      { s with
        fc := none
        duration := none
        addr1 := none
        addr2 := none
        addr3 := none
        addr4 := none
        seqControl := none
        crc := none
        payOff := none
        payLen := none
        status := ⟨true, true, f.cond.code, f.stage⟩
        errOff := f.off } := by
  simp only [raise, destinations, clearDests, List.foldl, clearDest, setU16, setAddr]

theorem illegalCommand_eq (s : State) :
    illegalCommand s = { s with status := ⟨true, true, .illegalCommand, .cmd⟩, errOff := 0 } := rfl

end Sys2Proof.Machine
end

