-- ==== Sys2Proof/Laws/Ops.lean ====
section
/-! SUPPORT. What each shared operation can do, said once: the shape of a reading operation, `MemRead` and the reads over
it, the tests that find a field, the stages of `PARSE`. -/

namespace Sys2Proof.Machine

/-! The shape of a reading operation. -/

/-- A reading operation answers a next state in two ways: a test was raised, or the result was committed. -/
theorem finish_next_iff {α : Type} {ds : List Dest} {s : State} {t : Except Failure α} {k : α → Except Fault State}
    {u : State} :
    finish ds s t k = .next u ↔
      (∃ f, t = .error f ∧ u = raise ds f s) ∨ (∃ a v, t = .ok a ∧ k a = .ok v ∧ u = succeed v) := by
  cases t with
  | error f => simp [finish, eq_comm]
  | ok a => cases h : k a <;> simp [finish, h, eq_comm]

/-- A reading operation faults only where its reads do. -/
theorem finish_fault_iff {α : Type} {ds : List Dest} {s : State} {t : Except Failure α} {k : α → Except Fault State}
    {e : Fault} : finish ds s t k = .fault e ↔ ∃ a, t = .ok a ∧ k a = .error e := by
  cases t with
  | error f => simp [finish]
  | ok a => cases h : k a <;> simp [finish, h]

/-- A reading operation is never refused. -/
theorem finish_ne_refused {α : Type} (ds : List Dest) (s : State) (t : Except Failure α) (k : α → Except Fault State)
    (r : Refusal) : finish ds s t k ≠ .refused r := by
  cases t with
  | error f => simp [finish]
  | ok a => cases h : k a <;> simp [finish, h]

/-! Reads. -/

/-- `MemRead` gives a byte only below `LEN`, and then the one the buffer holds. -/
theorem memRead_ok_iff {s : State} {a : Nat} {b : Byte} :
    memRead s a = .ok b ↔ a < s.len ∧ Memory.get s.buf a = some b := by
  unfold memRead
  split
  · rename_i h; cases hg : Memory.get s.buf a <;> simp [h]
  · rename_i h; simp [h]

/-- Where `MemRead` stops: at or above `LEN`, or at a byte that holds `none`. -/
theorem memRead_error_iff {s : State} {a : Nat} {e : Fault} :
    memRead s a = .error e ↔
      (s.len ≤ a ∧ e = .beyondFrame a) ∨ (a < s.len ∧ Memory.get s.buf a = none ∧ e = .byteHoldsNone a) := by
  unfold memRead
  split
  · rename_i h; cases hg : Memory.get s.buf a <;> simp [h, Nat.not_le.2 h, eq_comm]
  · rename_i h; simp [h, eq_comm]; omega

/-- `MemRead` of a written byte below `LEN`. -/
theorem memRead_written {s : State} {a : Nat} (hl : a < s.len) (hw : s.written a = true) :
    memRead s a = .ok (s.byteAt a) := by
  rw [memRead_ok_iff]
  refine ⟨hl, ?_⟩
  unfold State.written at hw
  unfold State.byteAt
  cases h : Memory.get s.buf a <;> simp_all

/-- A 16-bit read of written bytes below `LEN`. -/
theorem readU16_written {s : State} {a : Nat} (hl : a + 1 < s.len) (hw : s.writtenFrom a 2) :
    readU16 s a = .ok (s.wordAt a) := by
  have h0 : memRead s a = .ok (s.byteAt a) := memRead_written (by omega) (hw 0 (by omega))
  have h1 : memRead s (a + 1) = .ok (s.byteAt (a + 1)) := memRead_written hl (hw 1 (by omega))
  unfold readU16; rw [h0]; simp only [bind, Except.bind]; rw [h1]; rfl

/-- An address read of written bytes below `LEN`. -/
theorem readAddr_written {s : State} {a : Nat} (hl : a + 5 < s.len) (hw : s.writtenFrom a 6) :
    readAddr s a = .ok (s.addrAt a) := by
  have h (j : Nat) (hj : j < 6) : memRead s (a + j) = .ok (s.byteAt (a + j)) :=
    memRead_written (by omega) (hw j hj)
  have h0 := h 0 (by omega)
  simp only [Nat.add_zero] at h0
  simp only [readAddr, bind, Except.bind, h0, h 1 (by omega), h 2 (by omega), h 3 (by omega), h 4 (by omega),
    h 5 (by omega)]
  rfl

/-- A 16-bit read depends on its two `MemRead`s alone. -/
theorem readU16_congr {s t : State} {a : Nat} (h0 : memRead s a = memRead t a)
    (h1 : memRead s (a + 1) = memRead t (a + 1)) : readU16 s a = readU16 t a := by
  unfold readU16; rw [h0, h1]

/-- An address read depends on its six `MemRead`s alone. -/
theorem readAddr_congr {s t : State} {a : Nat} (h : ∀ j, j < 6 → memRead s (a + j) = memRead t (a + j)) :
    readAddr s a = readAddr t a := by
  have h0 := h 0 (by omega)
  simp only [Nat.add_zero] at h0
  unfold readAddr
  rw [h0, h 1 (by omega), h 2 (by omega), h 3 (by omega), h 4 (by omega), h 5 (by omega)]

/-- `MemRead` depends on `LEN` and the buffer alone. -/
theorem memRead_congr {s t : State} (hl : s.len = t.len) (hb : s.buf = t.buf) (a : Nat) : memRead s a = memRead t a := by
  unfold memRead; rw [hl, hb]

/-- A 16-bit read stops only at a byte below `LEN` that holds `none`, if both bytes lie below `LEN`. -/
theorem readU16_error {s : State} {a : Nat} {e : Fault} (hl : a + 1 < s.len) (h : readU16 s a = .error e) :
    ∃ x, x < s.len ∧ s.written x = false ∧ e = .byteHoldsNone x := by
  have key (x : Nat) (hx : x < s.len) (hm : memRead s x = .error e) :
      ∃ x, x < s.len ∧ s.written x = false ∧ e = .byteHoldsNone x := by
    rcases memRead_error_iff.1 hm with ⟨h1, _⟩ | ⟨_, h2, rfl⟩
    · omega
    · exact ⟨x, hx, by simp [State.written, h2], rfl⟩
  unfold readU16 at h
  simp only [bind, Except.bind] at h
  split at h
  · rename_i e' he; cases h; exact key a (by omega) he
  · split at h
    · rename_i e' he; cases h; exact key (a + 1) hl he
    · cases h

/-- An address read stops only at a byte below `LEN` that holds `none`, if its bytes lie below `LEN`. -/
theorem readAddr_error {s : State} {a : Nat} {e : Fault} (hl : a + 5 < s.len) (h : readAddr s a = .error e) :
    ∃ x, x < s.len ∧ s.written x = false ∧ e = .byteHoldsNone x := by
  have key (x : Nat) (hx : x < s.len) (hm : memRead s x = .error e) :
      ∃ x, x < s.len ∧ s.written x = false ∧ e = .byteHoldsNone x := by
    rcases memRead_error_iff.1 hm with ⟨h1, _⟩ | ⟨_, h2, rfl⟩
    · omega
    · exact ⟨x, hx, by simp [State.written, h2], rfl⟩
  unfold readAddr at h
  simp only [bind, Except.bind] at h
  repeat' split at h
  all_goals first
    | (rename_i e' he; cases h; exact key _ (by omega) he)
    | cases h

/-! Bits. -/

/-- The value of `w` bits is below `2^w` (40_bitfield_reader.md R69). -/
theorem bitsAt_lt (s : State) (p w : Nat) : s.bitsAt p w < 2 ^ w := by
  induction w with
  | zero => simp [State.bitsAt]
  | succ k ih =>
    have : (s.bitAt (p + k)).toNat ≤ 1 := Bool.toNat_le _
    simp only [State.bitsAt, Nat.pow_succ]; omega

/-- Bits read one after another compose (40_bitfield_reader.md R67). -/
theorem bitsAt_add (s : State) (p m n : Nat) : s.bitsAt p (m + n) = s.bitsAt p m * 2 ^ n + s.bitsAt (p + m) n := by
  induction n with
  | zero => simp [State.bitsAt]
  | succ k ih =>
    have h : s.bitsAt p (m + (k + 1)) = 2 * s.bitsAt p (m + k) + (s.bitAt (p + (m + k))).toNat := rfl
    have h' : s.bitsAt (p + m) (k + 1) = 2 * s.bitsAt (p + m) k + (s.bitAt (p + m + k)).toNat := rfl
    rw [h, h', ih, Nat.pow_succ, ← Nat.mul_assoc, Nat.add_assoc p m k]; omega

/-- `stream_bit` of a written byte below `LEN`. -/
theorem streamBit_written {s : State} {p : Nat} (hl : p < 8 * s.len) (hw : s.written (p / 8) = true) :
    streamBit s p = .ok (s.bitAt p) := by
  have h : memRead s (byteOff p) = .ok (s.byteAt (p / 8)) := memRead_written (by unfold byteOff; omega) hw
  unfold streamBit; rw [h]; rfl

/-- The read of bits that lie in written bytes below `LEN`. -/
theorem readBits_written {s : State} {c w : Nat} (hl : c + w ≤ 8 * s.len)
    (hw : ∀ k, k < w → s.written ((c + k) / 8) = true) : readBits s c w = .ok (s.bitsAt c w) := by
  induction w with
  | zero => rfl
  | succ k ih =>
    have h1 := ih (by omega) (fun j hj => hw j (by omega))
    have h2 := streamBit_written (s := s) (p := c + k) (by omega) (hw k (by omega))
    simp only [readBits, bind, Except.bind, h1, h2]; rfl

/-- The read of bits below `8 * LEN` gives a number below `2^w`, and needs its bytes written. -/
theorem readBits_ok {s : State} {c w v : Nat} (h : readBits s c w = .ok v) :
    v = s.bitsAt c w ∧ ∀ k, k < w → s.written ((c + k) / 8) = true := by
  induction w generalizing v with
  | zero => cases h; exact ⟨rfl, fun k hk => absurd hk (by omega)⟩
  | succ n ih =>
    simp only [readBits, bind, Except.bind] at h
    split at h
    · cases h
    · rename_i v' hv
      split at h
      · cases h
      · rename_i b hb
        obtain ⟨rfl, hw⟩ := ih hv
        unfold streamBit at hb
        simp only [bind, Except.bind] at hb
        split at hb
        · cases hb
        · rename_i y hy
          obtain ⟨_, hg⟩ := memRead_ok_iff.1 hy
          have hy' : s.byteAt ((c + n) / 8) = y := by
            unfold State.byteAt; show (Memory.get s.buf (byteOff (c + n))).getD 0 = y; rw [hg]; rfl
          cases hb; cases h
          refine ⟨?_, ?_⟩
          · simp only [State.bitsAt, State.bitAt, hy', bitInByte]
          · intro k hk
            rcases Nat.lt_succ_iff_lt_or_eq.1 hk with hk | rfl
            · exact hw k hk
            · show (Memory.get s.buf (byteOff (c + k))).isSome = true; rw [hg]; rfl

/-- The read of bits stops only at a byte below `LEN` that holds `none`, if the bits lie below `8 * LEN`. -/
theorem readBits_error {s : State} {c w : Nat} {e : Fault} (hl : c + w ≤ 8 * s.len) (h : readBits s c w = .error e) :
    ∃ x, x < s.len ∧ s.written x = false ∧ e = .byteHoldsNone x := by
  induction w with
  | zero => cases h
  | succ n ih =>
    simp only [readBits, bind, Except.bind] at h
    split at h
    · rename_i e' he; cases h; exact ih (by omega) he
    · split at h
      · rename_i e' he
        cases h
        unfold streamBit at he
        simp only [bind, Except.bind] at he
        split at he
        · rename_i e' hm
          cases he
          rcases memRead_error_iff.1 hm with ⟨h1, _⟩ | ⟨h1, h2, rfl⟩
          · unfold byteOff at h1; omega
          · exact ⟨_, h1, by simp [State.written, h2], rfl⟩
        · cases he
      · cases h

/-! Tests. -/

/-- `MemRead` of a byte below `LEN` that nothing has written. -/
theorem memRead_unwritten {s : State} {a : Nat} (hl : a < s.len) (hw : s.written a = false) :
    memRead s a = .error (.byteHoldsNone a) :=
  memRead_error_iff.2 (.inr ⟨hl, Option.isSome_eq_false_iff.1 hw |> Option.isNone_iff_eq_none.1, rfl⟩)

/-- A read of bits stops at the first of its bytes that nothing has written. -/
theorem readBits_unwritten {s : State} {c k w : Nat} (hk : k < w) (hl : c + w ≤ 8 * s.len)
    (hw : s.written ((c + k) / 8) = false) (hj : ∀ j, j < k → s.written ((c + j) / 8) = true) :
    readBits s c w = .error (.byteHoldsNone ((c + k) / 8)) := by
  induction w with
  | zero => omega
  | succ n ih =>
    by_cases hkn : k < n
    · simp only [readBits, ih hkn (by omega), bind, Except.bind]
    · obtain rfl : k = n := by omega
      rw [readBits, readBits_written (by omega) hj]
      simp only [bind, Except.bind, streamBit, byteOff]
      rw [memRead_unwritten (by omega) hw]

/-- A 16-bit read stops at the first of its bytes that nothing has written. -/
theorem readU16_unwritten {s : State} {a k : Nat} (hk : k < 2) (hl : a + 1 < s.len) (hw : s.written (a + k) = false)
    (hj : s.writtenFrom a k) : readU16 s a = .error (.byteHoldsNone (a + k)) := by
  have hn := memRead_unwritten (s := s) (a := a + k) (by omega) hw
  have hr : ∀ j, j < k → memRead s (a + j) = .ok (s.byteAt (a + j)) := fun j h => memRead_written (by omega) (hj j h)
  simp only [readU16, bind, Except.bind]
  match k, hk with
  | 0, _ => rw [show memRead s a = _ from hn]
  | 1, _ => rw [show memRead s a = _ from hr 0 (by omega), hn]

/-- An address read stops at the first of its bytes that nothing has written. -/
theorem readAddr_unwritten {s : State} {a k : Nat} (hk : k < 6) (hl : a + 5 < s.len) (hw : s.written (a + k) = false)
    (hj : s.writtenFrom a k) : readAddr s a = .error (.byteHoldsNone (a + k)) := by
  have hn := memRead_unwritten (s := s) (a := a + k) (by omega) hw
  have hr : ∀ j, j < k → memRead s (a + j) = .ok (s.byteAt (a + j)) := fun j h => memRead_written (by omega) (hj j h)
  simp only [readAddr, bind, Except.bind]
  match k, hk with
  | 0, _ => rw [show memRead s a = _ from hn]
  | 1, _ => rw [show memRead s a = _ from hr 0 (by omega), hn]
  | 2, _ => rw [show memRead s a = _ from hr 0 (by omega), hr 1 (by omega), hn]
  | 3, _ => rw [show memRead s a = _ from hr 0 (by omega), hr 1 (by omega), hr 2 (by omega), hn]
  | 4, _ => rw [show memRead s a = _ from hr 0 (by omega), hr 1 (by omega), hr 2 (by omega), hr 3 (by omega), hn]
  | 5, _ =>
    rw [show memRead s a = _ from hr 0 (by omega), hr 1 (by omega), hr 2 (by omega), hr 3 (by omega), hr 4 (by omega), hn]

/-- The bit test passes exactly when the bits lie below `8 * LEN`. -/
theorem testBits_ok_iff {len c w : Nat} (hw : 0 < w) : testBits len c w = .ok () ↔ c + w ≤ 8 * len := by
  unfold testBits availBits
  repeat' split
  all_goals simp
  all_goals omega

/-- The failure of the bit test. -/
theorem testBits_error_iff {len c w : Nat} {f : Failure} (hw : 0 < w) :
    testBits len c w = .error f ↔ 8 * len < c + w ∧ f = ⟨.insufficientData, .bits, c⟩ := by
  unfold testBits availBits
  repeat' split
  all_goals simp [eq_comm]
  all_goals omega

/-- A byte-granular field is found exactly at an aligned cursor with its bytes below `LEN`. -/
theorem takeField_ok_iff {len c n : Nat} {st : Stage} {x : Field} (hn : 0 < n) :
    takeField len c n st = .ok x ↔ c % 8 = 0 ∧ c + 8 * n ≤ 8 * len ∧ x = ⟨c / 8, c + 8 * n⟩ := by
  unfold takeField availBytes availBits bitInByte byteOff
  repeat' split
  all_goals simp_all [eq_comm]
  all_goals omega

/-- The failures of a byte-granular field, alignment first. -/
theorem takeField_error_iff {len c n : Nat} {st : Stage} {f : Failure} (hn : 0 < n) :
    takeField len c n st = .error f ↔
      (c % 8 ≠ 0 ∧ f = ⟨.misalignedCursor, st, c⟩) ∨
        (c % 8 = 0 ∧ 8 * len < c + 8 * n ∧ f = ⟨.insufficientData, st, c⟩) := by
  unfold takeField availBytes availBits bitInByte byteOff
  repeat' split
  all_goals simp_all [eq_comm]
  all_goals omega

/-- A span is found exactly at an aligned cursor with the trailer below `LEN`. -/
theorem takeSpan_ok_iff {len c : Nat} {x : Span} :
    takeSpan len c = .ok x ↔ c % 8 = 0 ∧ c + 16 ≤ 8 * len ∧ x = ⟨c / 8, len - c / 8 - 2, 8 * len - 16⟩ := by
  unfold takeSpan availBytes availBits bitInByte byteOff Config.trailerBytes
  repeat' split
  all_goals simp_all [eq_comm]
  all_goals try omega
  constructor
  · rintro rfl; refine ⟨by omega, ?_⟩; congr 1 <;> omega
  · rintro ⟨_, rfl⟩; congr 1 <;> omega

/-- The failures of the span step, alignment first. -/
theorem takeSpan_error_iff {len c : Nat} {f : Failure} :
    takeSpan len c = .error f ↔
      (c % 8 ≠ 0 ∧ f = ⟨.misalignedCursor, .payload, c⟩) ∨
        (c % 8 = 0 ∧ 8 * len < c + 16 ∧ f = ⟨.truncatedFrame, .payload, c⟩) := by
  unfold takeSpan availBytes availBits bitInByte byteOff Config.trailerBytes
  repeat' split
  all_goals simp_all [eq_comm]
  all_goals omega

/-- A byte-granular field at an aligned cursor with enough data. -/
theorem takeField_ok {len c n : Nat} (st : Stage) (hn : 0 < n) (ha : c % 8 = 0) (hl : c + 8 * n ≤ 8 * len) :
    takeField len c n st = .ok ⟨c / 8, c + 8 * n⟩ :=
  (takeField_ok_iff hn).2 ⟨ha, hl, rfl⟩

/-- A byte-granular field at an aligned cursor without enough data. -/
theorem takeField_short {len c n : Nat} (st : Stage) (hn : 0 < n) (ha : c % 8 = 0) (hl : 8 * len < c + 8 * n) :
    takeField len c n st = .error ⟨.insufficientData, st, c⟩ :=
  (takeField_error_iff hn).2 (.inr ⟨ha, hl, rfl⟩)

/-! The stages of `PARSE`. -/

/-- All nine stages pass when the frame has 32 bytes or more (43_assembler.md R88). -/
theorem locateFrame_long {len : Nat} (h : 32 ≤ len) :
    locateFrame len = .ok ⟨0, 2, 4, 10, 16, 22, 28, 30, len - 32, len - 2, 8 * len⟩ := by
  have hs : takeSpan len 240 = .ok ⟨30, len - 32, 8 * len - 16⟩ := by
    rw [takeSpan_ok_iff]; refine ⟨rfl, by omega, ?_⟩; congr 1
  have hc : takeField len (8 * len - 16) 2 .crc = .ok ⟨len - 2, 8 * len⟩ := by
    rw [takeField_ok_iff (by omega)]; refine ⟨by omega, by omega, ?_⟩; congr 1 <;> omega
  simp only [locateFrame, Config.fcBytes, Config.u16Bytes, Config.addrBytes, bind, Except.bind,
    takeField_ok (len := len) (c := 0) (n := 2) .fc (by omega) rfl (by omega),
    takeField_ok (len := len) (c := 16) (n := 2) .duration (by omega) rfl (by omega),
    takeField_ok (len := len) (c := 32) (n := 6) .addr1 (by omega) rfl (by omega),
    takeField_ok (len := len) (c := 80) (n := 6) .addr2 (by omega) rfl (by omega),
    takeField_ok (len := len) (c := 128) (n := 6) .addr3 (by omega) rfl (by omega),
    takeField_ok (len := len) (c := 176) (n := 6) .addr4 (by omega) rfl (by omega),
    takeField_ok (len := len) (c := 224) (n := 2) .seqControl (by omega) rfl (by omega),
    Nat.reduceMul, Nat.reduceAdd, Nat.reduceDiv, hs, hc]

/-- The failure a test raises, if it raises one. -/
def failureOf {α : Type} : Except Failure α → Option Failure
  | .error f => some f
  | .ok _ => none

/-- A test that raises a failure is that failure. -/
theorem eq_error_of_failureOf {α : Type} {t : Except Failure α} {f : Failure} (h : failureOf t = some f) :
    t = .error f := by
  cases t <;> simp_all [failureOf]

/-- The failure of the stages as a function of `LEN` below 32 (43_assembler.md R89). -/
theorem locateFrame_short {len : Nat} (h : len < 32) : locateFrame len = .error (parseFailure len) := by
  have rows : ∀ n, n < 32 → failureOf (locateFrame n) = some (parseFailure n) := by decide
  exact eq_error_of_failureOf (rows len h)

end Sys2Proof.Machine
end

