-- ==== Sys2Proof/Laws/Exec.lean ====
section
/-! SUPPORT. What each meaning can answer, said once: the failure it raises or the state it commits. -/

namespace Sys2Proof.Machine

/-- Every width asks for at least one bit. -/
theorem widthBits_pos (w : Width) : 0 < widthBits w := by cases w <;> decide

/-- No width asks for more than four bits. -/
theorem widthBits_le (w : Width) : widthBits w ≤ 4 := by cases w <;> decide

/-- What `RDBITS` answers when it answers a next state. -/
theorem execRdbits_next {w : Width} {s t : State} (h : execRdbits w s = .next t) :
    (8 * s.len < s.cur + widthBits w ∧ t = raise [.bitval] ⟨.insufficientData, .bits, s.cur⟩ s) ∨
      (s.cur + widthBits w ≤ 8 * s.len ∧ (∀ k, k < widthBits w → s.written ((s.cur + k) / 8) = true) ∧
        t = succeed { s with
          bitval := some (BitVec.ofNat 4 (s.bitsAt s.cur (widthBits w))), cur := s.cur + widthBits w }) := by
  rcases finish_next_iff.1 h with ⟨f, hf, rfl⟩ | ⟨a, v, ha, hv, rfl⟩
  · obtain ⟨hl, rfl⟩ := (testBits_error_iff (widthBits_pos w)).1 hf
    exact .inl ⟨hl, rfl⟩
  · have hl := (testBits_ok_iff (widthBits_pos w)).1 ha
    simp only [bind, Except.bind] at hv
    split at hv
    · cases hv
    · rename_i n hn
      obtain ⟨rfl, hw⟩ := readBits_ok hn
      cases hv
      exact .inr ⟨hl, hw, rfl⟩

/-- A chain of reads answers a result exactly when each of its parts does. -/
theorem bind_ok_iff {ε α β : Type} {x : Except ε α} {f : α → Except ε β} {b : β} :
    (x >>= f) = .ok b ↔ ∃ a, x = .ok a ∧ f a = .ok b := by
  cases x <;> simp [bind, Except.bind]

/-- What a 16-bit read of written bytes gave. -/
theorem readU16_ok {s : State} {a : Nat} {v : Word} (h : readU16 s a = .ok v) :
    s.writtenFrom a 2 ∧ v = s.wordAt a := by
  simp only [readU16, bind_ok_iff, memRead_ok_iff] at h
  obtain ⟨_, ⟨_, g0⟩, _, ⟨_, g1⟩, hv⟩ := h
  cases hv
  constructor
  · intro j hj
    match j, hj with
    | 0, _ => simp [State.written, g0]
    | 1, _ => simp [State.written, g1]
  · simp [State.wordAt, State.byteAt, g0, g1]

/-- What an address read of written bytes gave. -/
theorem readAddr_ok {s : State} {a : Nat} {v : Address} (h : readAddr s a = .ok v) :
    s.writtenFrom a 6 ∧ v = s.addrAt a := by
  simp only [readAddr, bind_ok_iff, memRead_ok_iff] at h
  obtain ⟨_, ⟨_, g0⟩, _, ⟨_, g1⟩, _, ⟨_, g2⟩, _, ⟨_, g3⟩, _, ⟨_, g4⟩, _, ⟨_, g5⟩, hv⟩ := h
  cases hv
  constructor
  · intro j hj
    match j, hj with
    | 0, _ => simp [State.written, g0]
    | 1, _ => simp [State.written, g1]
    | 2, _ => simp [State.written, g2]
    | 3, _ => simp [State.written, g3]
    | 4, _ => simp [State.written, g4]
    | 5, _ => simp [State.written, g5]
  · simp [State.addrAt, State.byteAt, g0, g1, g2, g3, g4, g5]

/-- What `RDFC` answers when it answers a next state. -/
theorem execRdfc_next {s t : State} (h : execRdfc s = .next t) :
    (∃ f, takeField s.len s.cur 2 .fc = .error f ∧ t = raise [.fc] f s) ∨
      (s.cur % 8 = 0 ∧ s.cur + 16 ≤ 8 * s.len ∧ s.writtenFrom (s.cur / 8) 2 ∧
        t = succeed { s with fc := some (fcOfWord (s.wordAt (s.cur / 8))), cur := s.cur + 16 }) := by
  rcases finish_next_iff.1 h with ⟨f, hf, rfl⟩ | ⟨x, v, hx, hv, rfl⟩
  · exact .inl ⟨f, hf, rfl⟩
  · obtain ⟨ha, hl, rfl⟩ := (takeField_ok_iff (by decide)).1 hx
    obtain ⟨w, hr, hv⟩ := bind_ok_iff.1 hv
    obtain ⟨hw, rfl⟩ := readU16_ok hr
    cases hv
    exact .inr ⟨ha, hl, hw, rfl⟩

/-- What `RDU16` answers when it answers a next state. -/
theorem execRdu16_next {rd : U16Reg} {s t : State} (h : execRdu16 rd s = .next t) :
    (∃ f, takeField s.len s.cur 2 (u16Stage rd) = .error f ∧ t = raise [.u16 rd] f s) ∨
      (s.cur % 8 = 0 ∧ s.cur + 16 ≤ 8 * s.len ∧ s.writtenFrom (s.cur / 8) 2 ∧
        t = succeed { setU16 rd (some (s.wordAt (s.cur / 8))) s with cur := s.cur + 16 }) := by
  rcases finish_next_iff.1 h with ⟨f, hf, rfl⟩ | ⟨x, v, hx, hv, rfl⟩
  · exact .inl ⟨f, hf, rfl⟩
  · obtain ⟨ha, hl, rfl⟩ := (takeField_ok_iff (by decide)).1 hx
    obtain ⟨w, hr, hv⟩ := bind_ok_iff.1 hv
    obtain ⟨hw, rfl⟩ := readU16_ok hr
    cases hv
    exact .inr ⟨ha, hl, hw, rfl⟩

/-- What `RDADDR` answers when it answers a next state. -/
theorem execRdaddr_next {ra : AddrReg} {s t : State} (h : execRdaddr ra s = .next t) :
    (∃ f, takeField s.len s.cur 6 (addrStage ra) = .error f ∧ t = raise [.addr ra] f s) ∨
      (s.cur % 8 = 0 ∧ s.cur + 48 ≤ 8 * s.len ∧ s.writtenFrom (s.cur / 8) 6 ∧
        t = succeed { setAddr ra (some (s.addrAt (s.cur / 8))) s with cur := s.cur + 48 }) := by
  rcases finish_next_iff.1 h with ⟨f, hf, rfl⟩ | ⟨x, v, hx, hv, rfl⟩
  · exact .inl ⟨f, hf, rfl⟩
  · obtain ⟨ha, hl, rfl⟩ := (takeField_ok_iff (by decide)).1 hx
    obtain ⟨w, hr, hv⟩ := bind_ok_iff.1 hv
    obtain ⟨hw, rfl⟩ := readAddr_ok hr
    cases hv
    exact .inr ⟨ha, hl, hw, rfl⟩

/-- What `SPAN` answers when it answers a next state. -/
theorem execSpan_next {s t : State} (h : execSpan s = .next t) :
    (∃ f, takeSpan s.len s.cur = .error f ∧ t = raise [.payOff, .payLen] f s) ∨
      (s.cur % 8 = 0 ∧ s.cur + 16 ≤ 8 * s.len ∧
        t = succeed { s with
          payOff := some (s.cur / 8), payLen := some (s.len - s.cur / 8 - 2), cur := 8 * s.len - 16 }) := by
  rcases finish_next_iff.1 h with ⟨f, hf, rfl⟩ | ⟨x, v, hx, hv, rfl⟩
  · exact .inl ⟨f, hf, rfl⟩
  · obtain ⟨ha, hl, rfl⟩ := takeSpan_ok_iff.1 hx
    cases hv
    exact .inr ⟨ha, hl, rfl⟩

/-- The record and span that `PARSE` commits (43_assembler.md R88). -/
def parsed (s : State) : State :=
  { s with
    fc := some (fcOfWord (s.wordAt 0))
    duration := some (s.wordAt 2)
    addr1 := some (s.addrAt 4)
    addr2 := some (s.addrAt 10)
    addr3 := some (s.addrAt 16)
    addr4 := some (s.addrAt 22)
    seqControl := some (s.wordAt 28)
    crc := some (s.wordAt (s.len - 2))
    payOff := some 30
    payLen := some (s.len - 32)
    cur := 8 * s.len }

/-- What `PARSE` answers when it answers a next state. -/
theorem execParse_next {s t : State} (h : execParse s = .next t) :
    (s.len < 32 ∧ t = raise (destinations .parse) (parseFailure s.len) s) ∨
      (32 ≤ s.len ∧ s.writtenFrom 0 30 ∧ s.writtenFrom (s.len - 2) 2 ∧ t = succeed (parsed s)) := by
  rcases finish_next_iff.1 h with ⟨f, hf, rfl⟩ | ⟨x, v, hx, hv, rfl⟩
  · by_cases hl : s.len < 32
    · rw [locateFrame_short hl] at hf; cases hf; exact .inl ⟨hl, rfl⟩
    · rw [locateFrame_long (by omega)] at hf; cases hf
  · by_cases hl : s.len < 32
    · rw [locateFrame_short hl] at hx; cases hx
    · rw [locateFrame_long (by omega)] at hx
      cases hx
      simp only [commitFrame, bind_ok_iff] at hv
      obtain ⟨_, h0, _, h1, _, h2, _, h3, _, h4, _, h5, _, h6, _, h7, hv⟩ := hv
      obtain ⟨w0, rfl⟩ := readU16_ok h0
      obtain ⟨w1, rfl⟩ := readU16_ok h1
      obtain ⟨w2, rfl⟩ := readAddr_ok h2
      obtain ⟨w3, rfl⟩ := readAddr_ok h3
      obtain ⟨w4, rfl⟩ := readAddr_ok h4
      obtain ⟨w5, rfl⟩ := readAddr_ok h5
      obtain ⟨w6, rfl⟩ := readU16_ok h6
      obtain ⟨w7, rfl⟩ := readU16_ok h7
      cases hv
      refine .inr ⟨by omega, ?_, w7, rfl⟩
      intro j hj
      have split (a n : Nat) (hw : s.writtenFrom a n) (h1 : a ≤ j) (h2 : j < a + n) : s.written (0 + j) = true := by
        have := hw (j - a) (by omega)
        rwa [show a + (j - a) = 0 + j by omega] at this
      by_cases c0 : j < 2
      · exact split 0 2 w0 (by omega) (by omega)
      by_cases c1 : j < 4
      · exact split 2 2 w1 (by omega) (by omega)
      by_cases c2 : j < 10
      · exact split 4 6 w2 (by omega) (by omega)
      by_cases c3 : j < 16
      · exact split 10 6 w3 (by omega) (by omega)
      by_cases c4 : j < 22
      · exact split 16 6 w4 (by omega) (by omega)
      by_cases c5 : j < 28
      · exact split 22 6 w5 (by omega) (by omega)
      exact split 28 2 w6 (by omega) (by omega)

/-- The commit of a frame of 32 bytes or more whose header and trailer are written. -/
theorem commitFrame_long {s : State} (hl : 32 ≤ s.len) (hh : s.writtenFrom 0 30) (ht : s.writtenFrom (s.len - 2) 2) :
    commitFrame s ⟨0, 2, 4, 10, 16, 22, 28, 30, s.len - 32, s.len - 2, 8 * s.len⟩ = .ok (parsed s) := by
  have sub (a n : Nat) (h : a + n ≤ 30) : s.writtenFrom a n := by
    intro j hj
    have := hh (a + j) (by omega)
    rwa [Nat.zero_add] at this
  simp only [commitFrame, bind, Except.bind,
    readU16_written (s := s) (a := 0) (by omega) (sub 0 2 (by omega)),
    readU16_written (s := s) (a := 2) (by omega) (sub 2 2 (by omega)),
    readAddr_written (s := s) (a := 4) (by omega) (sub 4 6 (by omega)),
    readAddr_written (s := s) (a := 10) (by omega) (sub 10 6 (by omega)),
    readAddr_written (s := s) (a := 16) (by omega) (sub 16 6 (by omega)),
    readAddr_written (s := s) (a := 22) (by omega) (sub 22 6 (by omega)),
    readU16_written (s := s) (a := 28) (by omega) (sub 28 2 (by omega)),
    readU16_written (s := s) (a := s.len - 2) (by omega) ht]
  rfl

end Sys2Proof.Machine
end

