-- ==== Sys2Proof/Laws/Images.lean ====
section
/-! SUPPORT. The images of `FC` and of an address as numbers, and the laws of sequences of inputs. -/

namespace Sys2Proof.Machine

/-- The number of two words side by side. -/
theorem toNat_append_add {m n : Nat} (x : BitVec m) (y : BitVec n) : (x ++ y).toNat = x.toNat * 2 ^ n + y.toNat := by
  rw [BitVec.toNat_append, ← Nat.shiftLeft_add_eq_or_of_lt y.isLt, Nat.shiftLeft_eq]

/-- The image of `FC` is the number that shows its fields. -/
theorem wordOfFc_toNat (f : FrameControl) : (wordOfFc f).toNat = f.number := by
  unfold wordOfFc FrameControl.number
  repeat rw [toNat_append_add]
  omega

/-- The image of an address is the number that shows its bytes. -/
theorem imageOfAddr_toNat (x : Address) : (imageOfAddr x).toNat = x.number := by
  unfold imageOfAddr Address.number
  repeat rw [toNat_append_add]
  omega

/-- The address with the image of an address is that address. -/
theorem addrOfImage_imageOfAddr (x : Address) : addrOfImage (imageOfAddr x) = x := by
  have h := imageOfAddr_toNat x
  obtain ⟨b0, b1, b2, b3, b4, b5⟩ := x
  have := b0.isLt; have := b1.isLt; have := b2.isLt; have := b3.isLt; have := b4.isLt; have := b5.isLt
  simp only [Address.number] at h
  unfold addrOfImage
  congr 1 <;> (apply BitVec.eq_of_toNat_eq; rw [BitVec.extractLsb'_toNat, h, Nat.shiftRight_eq_div_pow]; omega)

/-- The number of an address fits its register. -/
theorem address_number_lt (x : Address) : x.number < 2 ^ 48 := imageOfAddr_toNat x ▸ (imageOfAddr x).isLt

/-- A sequence of inputs whose first is served. -/
theorem serveAll_cons {x : Input} {s t : State} (h : serve x s = .next t) (xs : List Input) :
    serveAll (x :: xs) s = serveAll xs t := by
  simp only [serveAll, h]

/-- Sequences of inputs are served one after the other. -/
theorem serveAll_append (xs ys : List Input) (s t : State) (h : serveAll xs s = .next t) :
    serveAll (xs ++ ys) s = serveAll ys t := by
  induction xs generalizing s with
  | nil => cases h; rfl
  | cons x xs ih =>
    simp only [List.cons_append, serveAll] at h ⊢
    cases hx : serve x s with
    | next u => rw [hx] at h; exact ih u h
    | fault e => rw [hx] at h; cases h
    | refused r => rw [hx] at h; cases h

end Sys2Proof.Machine
end

