-- ==== Sys2Proof/Laws/Host.lean ====
section
/-! SUPPORT. What a served input can answer, said once, and the room a bit offset has. -/

namespace Sys2Proof.Machine

/-- A bit offset up to the end of a full buffer fits the cursor's width (10_state.md R17). -/
theorem lt_curWidth {cap n : Nat} (h : n ≤ 8 * cap) : n < 2 ^ Config.curWidth cap := by
  unfold Config.curWidth Config.addrWidth
  split
  · subst_vars; simp at *; omega
  · have := @Nat.lt_log2_self cap
    rw [show cap.log2 + 1 + 3 = (cap.log2 + 1) + 3 from rfl, Nat.pow_add]
    omega

/-- What a host write that the width admits answers. -/
theorem writeIfFits_next {r : HostReg} {v : Nat} {s t : State} {k : Host.Outcome State Fault Refusal}
    (h : writeIfFits r v s k = .next t) : v < 2 ^ r.width s.cap ∧ k = .next t := by
  unfold writeIfFits at h
  split at h
  · exact ⟨‹_›, h⟩
  · cases h

/-- A host write that the width admits. -/
theorem writeIfFits_of_lt {r : HostReg} {v : Nat} {s : State} (k : Host.Outcome State Fault Refusal)
    (h : v < 2 ^ r.width s.cap) : writeIfFits r v s k = k := if_pos h

/-- What a served input answers when it answers a next state: a command, a write to a register, a read, a write to the
window, a read of it, or the reset. -/
theorem serve_next {x : Input} {s t : State} (h : serve x s = .next t) :
    (∃ b, x = commandInput b ∧ runCommand b s = .next t) ∨
    (∃ v, x = .write 0x03 v ∧ v ≤ s.cap ∧ t = { s with len := v }) ∨
    (∃ v, x = .write 0x04 v ∧ v < 2 ^ Config.curWidth s.cap ∧ t = { s with cur := v }) ∨
    (∃ v, x = .write 0x18 v ∧ v < 2 ^ 16 ∧ t = { s with argFc := some (BitVec.ofNat 16 v) }) ∨
    (∃ v, x = .write 0x19 v ∧ v < 2 ^ 16 ∧ t = { s with argU16 := some (BitVec.ofNat 16 v) }) ∨
    (∃ ra v, x = .write (HostReg.argAddr ra).index v ∧ v < 2 ^ 48 ∧
      t = setArgAddr ra (addrOfImage (BitVec.ofNat 48 v)) s) ∨
    (∃ i v, x = .read i ∧ t = { s with reply := some v }) ∨
    (∃ a b, x = .writeBuf a b ∧ a < s.cap ∧ t = { s with buf := Memory.set s.buf a b }) ∨
    (∃ a v d, x = .readBuf a ∧ t = { s with reply := some v, draws := d }) ∨
    (x = .reset ∧ t = platformReset s) := by
  cases x with
  | write index value =>
    simp only [serve] at h
    split at h
    · rename_i r hr
      have hi : r.index = index := by
        unfold hostRegAt at hr
        split at hr <;> cases hr <;> rfl
      subst hi
      cases r with
      | cmd =>
        obtain ⟨hv, h⟩ := writeIfFits_next h
        refine .inl ⟨BitVec.ofNat 8 value, ?_, h⟩
        simp [commandInput, Nat.mod_eq_of_lt (show value < 256 from hv)]
      | len =>
        simp only [writeRegister] at h
        split at h
        · cases h; exact .inr (.inl ⟨value, rfl, ‹_›, rfl⟩)
        · cases h
      | cur =>
        obtain ⟨hv, h⟩ := writeIfFits_next h
        cases h; exact .inr (.inr (.inl ⟨value, rfl, hv, rfl⟩))
      | argFc =>
        obtain ⟨hv, h⟩ := writeIfFits_next h
        cases h; exact .inr (.inr (.inr (.inl ⟨value, rfl, hv, rfl⟩)))
      | argU16 =>
        obtain ⟨hv, h⟩ := writeIfFits_next h
        cases h; exact .inr (.inr (.inr (.inr (.inl ⟨value, rfl, hv, rfl⟩))))
      | argAddr ra =>
        obtain ⟨hv, h⟩ := writeIfFits_next h
        cases h; exact .inr (.inr (.inr (.inr (.inr (.inl ⟨ra, value, rfl, hv, rfl⟩)))))
      | status => cases h
      | errOff => cases h
      | bitval => cases h
      | payOff => cases h
      | payLen => cases h
      | fc => cases h
      | duration => cases h
      | addr ra => cases h
      | seqControl => cases h
      | crc => cases h
      | payload => cases h
    · cases h
  | read index =>
    simp only [serve, readRegister] at h
    split at h
    · split at h
      · split at h
        · cases h; exact .inr (.inr (.inr (.inr (.inr (.inr (.inl ⟨_, _, rfl, rfl⟩))))))
        · cases h
      · cases h
    · cases h
  | writeBuf a b =>
    simp only [serve, writeWindow] at h
    split at h
    · cases h; exact .inr (.inr (.inr (.inr (.inr (.inr (.inr (.inl ⟨a, b, rfl, ‹_›, rfl⟩)))))))
    · cases h
  | readBuf a =>
    simp only [serve, readWindow] at h
    split at h
    · split at h
      · cases h; exact .inr (.inr (.inr (.inr (.inr (.inr (.inr (.inr (.inl ⟨a, _, s.draws, rfl, rfl⟩))))))))
      · split at h
        · cases h
        · cases h; exact .inr (.inr (.inr (.inr (.inr (.inr (.inr (.inr (.inl ⟨a, _, _, rfl, rfl⟩))))))))
    · cases h
  | reset => cases h; exact .inr (.inr (.inr (.inr (.inr (.inr (.inr (.inr (.inr ⟨rfl, rfl⟩))))))))

/-- What a step answers when it answers a next state: nothing was pending, or the oldest input was served. -/
theorem step_next {s t : State} (h : step s = .next t) :
    (s.inputs = [] ∧ t = s) ∨
      ∃ x rest, s.inputs = x :: rest ∧ serve x { s with inputs := rest } = .next t := by
  unfold step at h
  split at h
  · cases h; exact .inl ⟨‹_›, rfl⟩
  · exact .inr ⟨_, _, ‹_›, h⟩

/-- The host's write of a word to `ARG_FC`. -/
theorem serve_argFc (w : Word) (s : State) : serve (.write 0x18 w.toNat) s = .next { s with argFc := some w } := by
  show writeIfFits .argFc w.toNat s _ = _
  rw [writeIfFits_of_lt _ w.isLt, BitVec.ofNat_toNat, BitVec.setWidth_eq]

/-- The host's write of a word to `ARG_U16`. -/
theorem serve_argU16 (w : Word) (s : State) : serve (.write 0x19 w.toNat) s = .next { s with argU16 := some w } := by
  show writeIfFits .argU16 w.toNat s _ = _
  rw [writeIfFits_of_lt _ w.isLt, BitVec.ofNat_toNat, BitVec.setWidth_eq]

/-- The host's write of an address to an address operand register, at its index. -/
theorem serve_argAddr {n : Nat} {ra : AddrReg} (h : hostRegAt n = some (.argAddr ra)) (x : Address) (s : State) :
    serve (.write n x.number) s = .next (setArgAddr ra x s) := by
  simp only [serve, h, writeRegister]
  rw [writeIfFits_of_lt _ (address_number_lt x), ← imageOfAddr_toNat, BitVec.ofNat_toNat, BitVec.setWidth_eq,
    addrOfImage_imageOfAddr]

/-- A write to `CMD` runs the command. -/
theorem serve_command (b : Byte) (s : State) : serve (commandInput b) s = runCommand b s := by
  show writeIfFits .cmd b.toNat s _ = _
  rw [writeIfFits_of_lt _ b.isLt, BitVec.ofNat_toNat, BitVec.setWidth_eq]

/-- The state that a replacement leaves: the operand registers written, the record registers the same, success. -/
def Replacement.applied (s : State) : Replacement → State
  | .fc w => succeed { s with argFc := some w, fc := some (fcOfWord w) }
  | .addrs x1 x2 x3 x4 =>
    succeed { s with
      argAddr1 := some x1
      argAddr2 := some x2
      argAddr3 := some x3
      argAddr4 := some x4
      addr1 := some x1
      addr2 := some x2
      addr3 := some x3
      addr4 := some x4 }
  | .duration w => succeed { s with argU16 := some w, duration := some w }
  | .seqControl w => succeed { s with argU16 := some w, seqControl := some w }
  | .crc w => succeed { s with argU16 := some w, crc := some w }

/-- What the host's inputs of a replacement do. -/
theorem serveAll_replacement (r : Replacement) (s : State) : serveAll r.inputs s = .next (r.applied s) := by
  cases r with
  | fc w =>
    show serveAll [.write 0x18 w.toNat, commandInput 0x80] s = _
    rw [serveAll_cons (serve_argFc _ _), serveAll_cons (serve_command _ _)]; rfl
  | addrs x1 x2 x3 x4 =>
    show serveAll [.write 0x1A x1.number, .write 0x1B x2.number, .write 0x1C x3.number, .write 0x1D x4.number,
      commandInput 0x90] s = _
    rw [serveAll_cons (serve_argAddr (ra := .addr1) rfl _ _), serveAll_cons (serve_argAddr (ra := .addr2) rfl _ _),
      serveAll_cons (serve_argAddr (ra := .addr3) rfl _ _), serveAll_cons (serve_argAddr (ra := .addr4) rfl _ _),
      serveAll_cons (serve_command _ _)]
    rfl
  | duration w =>
    show serveAll [.write 0x19 w.toNat, commandInput 0xA0] s = _
    rw [serveAll_cons (serve_argU16 _ _), serveAll_cons (serve_command _ _)]; rfl
  | seqControl w =>
    show serveAll [.write 0x19 w.toNat, commandInput 0xA1] s = _
    rw [serveAll_cons (serve_argU16 _ _), serveAll_cons (serve_command _ _)]; rfl
  | crc w =>
    show serveAll [.write 0x19 w.toNat, commandInput 0xA2] s = _
    rw [serveAll_cons (serve_argU16 _ _), serveAll_cons (serve_command _ _)]; rfl

end Sys2Proof.Machine
end

