-- ==== Sys2Proof/Laws/PerInstr.lean ====
section
/-! SUPPORT. Statements made for all instructions, one lemma per constructor. -/

namespace Sys2Proof.Laws.Encoding

/-- An instruction is well formed, its byte has `sel[3:2]` zero (30_encoding.md R56), and the decoder reads it back from
that byte. -/
def Statement (i : Instr) : Prop :=
  i.wellFormed = true ∧ (encode i).extractLsb' 2 2 = 0 ∧ decode (encode i) = .ok i

theorem rdbits (w : Width) : Statement (.rdbits w) := by
  cases w <;> exact ⟨by decide, by decide, rfl⟩

theorem rdfc : Statement .rdfc := ⟨by decide, by decide, rfl⟩

theorem rdu16 (rd : U16Reg) : Statement (.rdu16 rd) := by
  cases rd <;> exact ⟨by decide, by decide, rfl⟩

theorem rdaddr (ra : AddrReg) : Statement (.rdaddr ra) := by
  cases ra <;> exact ⟨by decide, by decide, rfl⟩

theorem span : Statement .span := ⟨by decide, by decide, rfl⟩

theorem parse : Statement .parse := ⟨by decide, by decide, rfl⟩

theorem setfc : Statement .setfc := ⟨by decide, by decide, rfl⟩

theorem setaddrs : Statement .setaddrs := ⟨by decide, by decide, rfl⟩

theorem setdur : Statement .setdur := ⟨by decide, by decide, rfl⟩

theorem setseq : Statement .setseq := ⟨by decide, by decide, rfl⟩

theorem setcrc : Statement .setcrc := ⟨by decide, by decide, rfl⟩

end Sys2Proof.Laws.Encoding
end

