-- ==== Sys2Proof/Machine/Assembly.lean ====
section
/-! DEFINITION. The assembler lines of 30_encoding.md R62 and the pseudo-instructions of R63, as the inputs they stand for.
A host assignment (`LEN = 40`) is an `Input` already and needs no text. -/

namespace Sys2Proof.Machine

/-- The input that issues an instruction. -/
def issue (i : Instr) : Input := commandInput (encode i)

/-- The expansion of a pseudo-instruction (30_encoding.md R63). -/
def expand : Pseudo → List Input
  | .rddur => [issue (.rdu16 .duration)]
  | .rdseq => [issue (.rdu16 .seqControl)]
  | .rdcrc => [issue (.rdu16 .crc)]
  | .rewind => [.write HostReg.cur.index 0]
  | .rdfcBits => [issue (.rdbits .w2), issue (.rdbits .w2), issue (.rdbits .w4)] ++ List.replicate 8 (issue (.rdbits .w1))
  | .parseSteps =>
    [.write HostReg.cur.index 0, issue .rdfc, issue (.rdu16 .duration), issue (.rdaddr .addr1), issue (.rdaddr .addr2),
      issue (.rdaddr .addr3), issue (.rdaddr .addr4), issue (.rdu16 .seqControl), issue .span, issue (.rdu16 .crc)]

/-- The words of a line: letters in lower case, blanks and tabs between words, nothing from `#` on (30_encoding.md R62;
log 15). -/
def lineWords : List Char → List Char → List (List Char)
  | word, [] => if word = [] then [] else [word.reverse]
  | word, c :: rest =>
    if c = '#' then (if word = [] then [] else [word.reverse])
    else if c = ' ' ∨ c = '\t' then (if word = [] then lineWords [] rest else word.reverse :: lineWords [] rest)
    else lineWords (c.toLower :: word) rest

/-- The operand of `rdbits` (30_encoding.md R62). -/
def widthOfText : String → Option Width
  | "1" => some .w1
  | "2" => some .w2
  | "4" => some .w4
  | _ => none

/-- The operand of `rdu16` (30_encoding.md R62). -/
def u16RegOfText : String → Option U16Reg
  | "duration" => some .duration
  | "seq_control" => some .seqControl
  | "crc" => some .crc
  | _ => none

/-- The operand of `rdaddr` (30_encoding.md R62). -/
def addrRegOfText : String → Option AddrReg
  | "addr1" => some .addr1
  | "addr2" => some .addr2
  | "addr3" => some .addr3
  | "addr4" => some .addr4
  | _ => none

/-- A line's words as the inputs they stand for: a command (30_encoding.md R62) or a pseudo-instruction (R63). -/
def assembleWords : List String → Option (List Input)
  | ["rdbits", w] => (widthOfText w).map fun w => [issue (.rdbits w)]
  | ["rdfc"] => some [issue .rdfc]
  | ["rdu16", r] => (u16RegOfText r).map fun r => [issue (.rdu16 r)]
  | ["rdaddr", r] => (addrRegOfText r).map fun r => [issue (.rdaddr r)]
  | ["span"] => some [issue .span]
  | ["parse"] => some [issue .parse]
  | ["setfc"] => some [issue .setfc]
  | ["setaddrs"] => some [issue .setaddrs]
  | ["setdur"] => some [issue .setdur]
  | ["setseq"] => some [issue .setseq]
  | ["setcrc"] => some [issue .setcrc]
  | ["rddur"] => some (expand .rddur)
  | ["rdseq"] => some (expand .rdseq)
  | ["rdcrc"] => some (expand .rdcrc)
  | ["rewind"] => some (expand .rewind)
  | ["rdfc.bits"] => some (expand .rdfcBits)
  | ["parse.steps"] => some (expand .parseSteps)
  | [] => some []
  | _ => none

/-- One line of assembler as the inputs it stands for; none where it is no line of the assembler. -/
def assembleLine (line : String) : Option (List Input) :=
  assembleWords ((lineWords [] line.toList).map String.ofList)

end Sys2Proof.Machine
end

