-- ==== Sys2Proof/Tests/Slice0.lean ====
section
/-! SUPPORT. The model's own tests: ill-formed terms are refused, command bytes written out bit by bit decode, one step
gives what 95_test_vectors.md says, and every statement's hypotheses are met by a concrete state. -/

namespace Sys2Proof.Tests

open Sys2Proof.Machine

/-! Helpers. -/

/-- Cells for bytes from an offset on. -/
def cells : Nat → List Byte → List Host.Cell
  | _, [] => []
  | a, b :: bs => (a, b) :: cells (a + 1) bs

/-- The state after reset with a buffer loaded, `LEN` at its length and the cursor put somewhere. -/
def loaded (bs : List Byte) (cur : Nat) : State :=
  { State.reset with buf := cells 0 bs, len := bs.length, cur := cur }

/-- The state after reset with `LEN` and `CUR` set and no byte written. -/
def unloaded (len cur : Nat) : State := { State.reset with len := len, cur := cur }

/-- The reference frame `F40` of 95_test_vectors.md. -/
def f40 : List Byte :=
  [0x88, 0x41, 0x01, 0x3A, 0x00, 0x11, 0x22, 0x33, 0x44, 0x55] ++ [0x66, 0x77, 0x88, 0x99, 0xAA, 0xBB]
    ++ [0xFF, 0xFF, 0xFF, 0xFF, 0xFF, 0xFF] ++ [0x01, 0x02, 0x03, 0x04, 0x05, 0x06] ++ [0x12, 0x34]
    ++ [0xDE, 0xAD, 0xBE, 0xEF, 0x00, 0x01, 0x02, 0x03] ++ [0xC0, 0xDE]

/-- The state after reset with one input pending. -/
def sending (x : Input) : State := { State.reset with inputs := [x] }

/-- Something seen in the next state; none where there is no next state. -/
def seen {α : Type} (o : Host.Outcome State Fault Refusal) (f : State → α) : Option α :=
  match o with
  | .next t => some (f t)
  | .fault _ => none
  | .refused _ => none

/-- Whether a step is refused. -/
def isRefused (o : Host.Outcome State Fault Refusal) : Bool :=
  match o with
  | .refused _ => true
  | .next _ => false
  | .fault _ => false

/-- The fault a step stops with. -/
def faultOf (o : Host.Outcome State Fault Refusal) : Option Fault :=
  match o with
  | .fault e => some e
  | .next _ => none
  | .refused _ => none

/-- What a failed command shows: `STATUS` as the host reads it, `ERR_OFF`, `CUR`. -/
def failure (t : State) : Nat × Nat × Nat := ((statusImage t).toNat, t.errOff, t.cur)

/-! ## Well-formedness -/

theorem test_wf_index_reserved : Input.wellFormed 8 (.write 0x11 0) = false := by decide
theorem test_wf_index_outside : Input.wellFormed 8 (.read 0x20) = false := by decide
theorem test_wf_read_only : Input.wellFormed 8 (.write 0x01 0) = false := by decide
theorem test_wf_write_only : Input.wellFormed 8 (.read 0x00) = false := by decide
theorem test_wf_len_above_cap : Input.wellFormed 8 (.write 0x03 9) = false := by decide
theorem test_wf_cmd_too_wide : Input.wellFormed 8 (.write 0x00 0x100) = false := by decide
theorem test_wf_cur_too_wide : Input.wellFormed 8 (.write 0x04 128) = false := by decide
theorem test_wf_arg_too_wide : Input.wellFormed 8 (.write 0x19 0x10000) = false := by decide
theorem test_wf_window_write : Input.wellFormed 8 (.writeBuf 8 0) = false := by decide
theorem test_wf_window_read : Input.wellFormed 8 (.readBuf 8) = false := by decide
theorem test_wf_accepts :
    Input.wellFormed 8 (.write 0x03 8) = true ∧ Input.wellFormed 8 (.write 0x04 127) = true ∧
      Input.wellFormed 8 (.write 0x00 0xFF) = true ∧ Input.wellFormed 8 (.readBuf 7) = true := by decide
/-- The refused neighbours of T-C1. -/
theorem test_wf_reserved_bytes :
    [0x13, 0x14, 0x21, 0x33, 0x44, 0x51, 0x61, 0x70, 0x81, 0x91, 0xA3, 0xB0, 0x00, 0xFF].all
      (fun b => !wellFormedCommand b) = true := by decide
/-- 00_scope.md R9: `AW` is the least `n` with `2^n > CAP`. -/
theorem test_widths :
    Config.addrWidth 65535 = 16 ∧ Config.curWidth 65535 = 19 ∧ Config.addrWidth 8 = 4 ∧ Config.addrWidth 7 = 3 := by
  decide

/-! ## Decoding, from the words of 30_encoding.md R56 to R59 -/

theorem test_decode_rdbits :
    decode 0b00010000 = .ok (.rdbits .w1) ∧ decode 0b00010001 = .ok (.rdbits .w2) ∧
      decode 0b00010010 = .ok (.rdbits .w4) := ⟨rfl, rfl, rfl⟩
theorem test_decode_rdfc : decode 0b00100000 = .ok .rdfc := rfl
theorem test_decode_rdu16 :
    decode 0b00110000 = .ok (.rdu16 .duration) ∧ decode 0b00110001 = .ok (.rdu16 .seqControl) ∧
      decode 0b00110010 = .ok (.rdu16 .crc) := ⟨rfl, rfl, rfl⟩
theorem test_decode_rdaddr :
    decode 0b01000000 = .ok (.rdaddr .addr1) ∧ decode 0b01000001 = .ok (.rdaddr .addr2) ∧
      decode 0b01000010 = .ok (.rdaddr .addr3) ∧ decode 0b01000011 = .ok (.rdaddr .addr4) := ⟨rfl, rfl, rfl, rfl⟩
theorem test_decode_span : decode 0b01010000 = .ok .span := rfl
theorem test_decode_parse : decode 0b01100000 = .ok .parse := rfl
theorem test_decode_setfc : decode 0b10000000 = .ok .setfc := rfl
theorem test_decode_setaddrs : decode 0b10010000 = .ok .setaddrs := rfl
theorem test_decode_set16 :
    decode 0b10100000 = .ok .setdur ∧ decode 0b10100001 = .ok .setseq ∧ decode 0b10100010 = .ok .setcrc :=
  ⟨rfl, rfl, rfl⟩
/-- The four kinds of reserved byte (30_encoding.md R59). -/
theorem test_decode_reserved :
    decode 0b01110000 = .error .op ∧ decode 0b00010100 = .error .selHigh ∧ decode 0b00100001 = .error .selLow ∧
      decode 0b00010011 = .error .operand := ⟨rfl, rfl, rfl, rfl⟩
theorem test_table_word : decodeTableWord 8 0x42 = some (.rdaddr .addr3) ∧ decodeTableWord 8 0x43 = some (.rdaddr .addr4) ∧
    decodeTableWord 8 0x33 = none := ⟨rfl, rfl, rfl⟩

/-! ## Assembler lines (30_encoding.md R62, R63) -/

theorem test_line_command : assembleLine "RDU16 seq_control  # 0x31" = some [.write 0x00 0x31] := by decide
theorem test_line_refused : assembleLine "rdbits 3" = none ∧ assembleLine "span 1" = none := by decide
theorem test_pseudo :
    expand .rddur = [.write 0x00 0x30] ∧ expand .rdseq = [.write 0x00 0x31] ∧ expand .rdcrc = [.write 0x00 0x32] ∧
      assembleLine "rewind" = some [.write 0x04 0] := by decide
theorem test_pseudo_rdfc_bits :
    expand .rdfcBits = [0x11, 0x11, 0x12, 0x10, 0x10, 0x10, 0x10, 0x10, 0x10, 0x10, 0x10].map (Input.write 0x00) := by
  decide
theorem test_pseudo_parse_steps :
    expand .parseSteps =
      .write 0x04 0 :: [0x20, 0x30, 0x40, 0x41, 0x42, 0x43, 0x31, 0x50, 0x32].map (Input.write 0x00) := by decide

/-! ## One step each, from 95_test_vectors.md -/

/-- T-B3: two bits across the boundary of `01 80`. -/
theorem test_rdbits_crosses :
    seen (exec (.rdbits .w2) (loaded [0x01, 0x80] 7)) (fun t => (t.bitval, t.cur, statusImage t)) =
      some (some 3, 9, 0x0001) := by decide
/-- T-B3, P5: two bits remain, four are asked. -/
theorem test_rdbits_fails :
    seen (exec (.rdbits .w4) (loaded [0xA5, 0x3C] 14)) (fun t => (t.bitval, failure t)) =
      some (none, 0x0A13, 14, 14) := by decide
/-- T-FC1, with C1's correction. -/
theorem test_rdfc :
    seen (exec .rdfc (loaded [0x88, 0x41] 0)) (fun t => (t.fc, t.cur)) =
      some (some ⟨2, 0, 8, 0, 1, 0, 0, 0, 0, 0, 1⟩, 16) := by decide
/-- T-FC3. -/
theorem test_rdfc_fails : seen (exec .rdfc (loaded [0x08] 0)) failure = some (0x0113, 0, 0) := by decide
/-- T-W1. -/
theorem test_rdu16 :
    seen (exec (.rdu16 .seqControl) (loaded [0x00, 0x01, 0xFF, 0x00] 16)) (fun t => (t.seqControl, t.cur)) =
      some (some 0xFF00, 32) := by decide
/-- T-W3: the alignment is tested before the data. -/
theorem test_rdu16_misaligned :
    seen (exec (.rdu16 .duration) (loaded [0x00, 0x11, 0x22] 3)) failure = some (0x0243, 3, 3) := by decide
/-- T-W3: any byte offset will do. -/
theorem test_rdaddr :
    seen (exec (.rdaddr .addr2) (loaded [0x00, 0x11, 0x22, 0x33, 0x44, 0x55, 0x66, 0x77] 8)) (fun t => (t.addr2, t.cur)) =
      some (some ⟨0x11, 0x22, 0x33, 0x44, 0x55, 0x66⟩, 56) := by decide
/-- T-W2: five bytes are left. -/
theorem test_rdaddr_fails :
    seen (exec (.rdaddr .addr4) (loaded [0x00, 0x11, 0x22, 0x33, 0x44, 0x55, 0x66, 0x77, 0x88, 0x99, 0xAA] 48)) failure =
      some (0x0613, 48, 48) := by decide
/-- T-S1: no byte need be written. -/
theorem test_span :
    seen (exec .span (unloaded 40 240)) (fun t => (t.payOff, t.payLen, t.cur, statusImage t)) =
      some (some 30, some 8, 304, 0x2001) := by decide
/-- T-S1: a cursor beyond the end, no negative count. -/
theorem test_span_fails : seen (exec .span (unloaded 10 800)) failure = some (0x0823, 800, 800) := by decide
/-- T-P1. -/
theorem test_parse :
    seen (exec .parse (loaded f40 5)) (fun t => [regImage t .duration, regImage t .seqControl, regImage t .crc,
      regImage t .fc, regImage t .payOff, regImage t .payLen, regImage t .cur, regImage t .status]) =
      some ([0x013A, 0x1234, 0xC0DE, 0x8841, 30, 8, 320, 0x3001].map some) := by decide
/-- S5: one byte short. -/
theorem test_parse_fails : seen (exec .parse (loaded (f40.take 31) 5)) failure = some (0x0823, 240, 5) := by decide
/-- T-R1. -/
theorem test_setfc :
    seen (exec .setfc { State.reset with argFc := some 0xC000 }) (fun t => (t.fc, statusImage t)) =
      some (some ⟨3, 0, 0, 0, 0, 0, 0, 0, 0, 0, 0⟩, 0x0001) := by decide
/-- T-R2: a `none` is copied as `none`, without error. -/
theorem test_setfc_none :
    seen (exec .setfc (loaded [] 0)) (fun t => (t.fc, statusImage t)) = some (none, 0x0001) := by decide
/-- P3: each address from its own operand register. -/
theorem test_setaddrs :
    seen (exec .setaddrs { State.reset with
      argAddr1 := some ⟨0x00, 0x11, 0x22, 0x33, 0x44, 0x55⟩
      argAddr4 := some ⟨0, 0, 0, 0, 0, 0⟩ }) (fun t => (t.addr1, t.addr2, t.addr4)) =
      some (some ⟨0x00, 0x11, 0x22, 0x33, 0x44, 0x55⟩, none, some ⟨0, 0, 0, 0, 0, 0⟩) := by decide
/-- P3. -/
theorem test_setdur :
    seen (exec .setdur { State.reset with argU16 := some 0x013A }) (fun t => (t.duration, t.seqControl, t.crc)) =
      some (some 0x013A, none, none) := by decide
/-- P3. -/
theorem test_setseq :
    seen (exec .setseq { State.reset with argU16 := some 0xFFFF }) (fun t => (t.duration, t.seqControl, t.crc)) =
      some (none, some 0xFFFF, none) := by decide
/-- P4: the record stays not valid. -/
theorem test_setcrc :
    seen (exec .setcrc { State.reset with argU16 := some 0xBEEF }) (fun t => (t.crc, t.duration, statusImage t)) =
      some (some 0xBEEF, none, 0x0001) := by decide
/-- T-C2: a reserved byte from reset. -/
theorem test_illegal :
    seen (step (State.reset.withFetchWord 8 0x00)) failure = some (0x0B33, 0, 0) := by decide
/-- T-P1 through the step: the word placed is the instruction run. -/
theorem test_step_runs :
    seen (step ((loaded f40 0).withFetchWord 8 0x60)) (fun t => (t.cur, t.inputs)) = some (320, []) := by decide
/-- 10_state.md R21: the first byte of an address is the most significant of its image. -/
theorem test_host_address :
    seen (step { State.reset with inputs := [.write 0x1A 0x001122334455] }) (fun t => t.argAddr1) =
      some (some ⟨0x00, 0x11, 0x22, 0x33, 0x44, 0x55⟩) := by decide
/-- 10_state.md R27: index 0x08 reads the image of `FC`. -/
theorem test_host_read_fc :
    seen (step { State.reset with fc := some ⟨2, 0, 8, 0, 1, 0, 0, 0, 0, 0, 1⟩, inputs := [.read 0x08] }) (fun t => t.reply) =
      some (some 0x8841) := by decide

/-! ## Witnesses: the hypotheses of the statements are met -/

theorem witness_StepRunsDecodedCommand :
    (sending (commandInput 0x60)).inputs = commandInput 0x60 :: [] ∧ decode 0x60 = .ok .parse := ⟨rfl, rfl⟩

theorem witness_ReservedByteIsIllegalCommand :
    (0xA3 : Byte) ∉ legalCommands ∧ (0x00 : Byte) ∉ legalCommands ∧ (0x14 : Byte) ∉ legalCommands := by decide

theorem witness_IdleBlockDoesNothing : State.reset.inputs = [] := rfl

/-- Each width at the end of the data, and four bits across a byte boundary. -/
theorem witness_RdbitsReadsMostSignificantFirst :
    (7 + widthBits .w2 ≤ 8 * 2 ∧ ∀ k, k < widthBits .w2 → (loaded [0x01, 0x80] 7).written ((7 + k) / 8) = true) ∧
    (12 + widthBits .w4 ≤ 8 * 2 ∧ 12 % 8 + widthBits .w4 ≤ 8 ∧
      ∀ k, k < widthBits .w4 → (loaded [0x01, 0x80] 12).written ((12 + k) / 8) = true) ∧
    (15 + widthBits .w1 ≤ 8 * 2 ∧ ∀ k, k < widthBits .w1 → (loaded [0x01, 0x80] 15).written ((15 + k) / 8) = true) := by
  decide

/-- One bit short, a cursor beyond the end, and exactly enough. -/
theorem witness_RdbitsFailsWithoutData :
    availBits (loaded [0x01, 0x80] 13).len 13 < widthBits .w4 ∧
    8 * (loaded [0x01, 0x80] 16).len ≤ 16 ∧ 8 * (loaded [0x01, 0x80] 20).len ≤ 20 ∧
    (14 + widthBits .w2 = 8 * (loaded [0x01, 0x80] 14).len ∧
      ∀ k, k < widthBits .w2 → (loaded [0x01, 0x80] 14).written ((14 + k) / 8) = true) := by decide

theorem witness_RdbitsValueBelowWidth :
    ∃ t, exec (.rdbits .w2) (loaded [0x01, 0x80] 7) = .next t ∧ t.bitval = some 3 := ⟨_, rfl, rfl⟩

/-- T-B2. -/
theorem witness_RdbitsReadsCompose :
    (∃ t u, exec (.rdbits .w4) (loaded [0xA5, 0x3C] 4) = .next t ∧ t.status.err = false ∧
      exec (.rdbits .w2) t = .next u ∧ u.status.err = false) ∧
    (∃ u, runBits [.w2, .w2] (loaded [0xA5, 0x3C] 0) = some ([2, 2], u)) ∧
    (∃ u, runBits [.w1, .w1, .w1, .w1] (loaded [0xA5, 0x3C] 6) = some ([0, 1, 0, 0], u)) :=
  ⟨⟨_, _, rfl, rfl, rfl, rfl⟩, ⟨_, rfl⟩, ⟨_, rfl⟩⟩

/-- Success and failure both answer a next state. -/
theorem witness_RdbitsFrame :
    (∃ t, exec (.rdbits .w1) (loaded [0x01] 7) = .next t) ∧ ∃ t, exec (.rdbits .w1) (loaded [0x01] 8) = .next t :=
  ⟨⟨_, rfl⟩, ⟨_, rfl⟩⟩

/-- The hypotheses of the byte-granular reads, at the start and with exactly the bytes needed left. -/
theorem witness_byte_reads :
    (∀ j, j < 2 → (loaded f40 304).written (304 / 8 + j) = true) ∧ 304 % 8 = 0 ∧ 304 + 16 ≤ 8 * (loaded f40 304).len ∧
    (∀ j, j < 6 → (loaded f40 272).written (272 / 8 + j) = true) ∧ 272 % 8 = 0 ∧ 272 + 48 ≤ 8 * (loaded f40 272).len ∧
    (∀ j, j < 2 → (loaded f40 0).written (0 / 8 + j) = true) ∧ 0 % 8 = 0 ∧ 0 + 16 ≤ 8 * (loaded f40 0).len := by decide

theorem witness_RdfcDecodesElevenFields :
    (loaded f40 304).cur % 8 = 0 ∧ (loaded f40 304).cur + 16 ≤ 8 * (loaded f40 304).len ∧
      (loaded f40 304).writtenFrom ((loaded f40 304).cur / 8) 2 :=
  ⟨by decide, by decide, witness_byte_reads.1⟩

theorem witness_Rdu16ReadsBigEndian :
    (loaded f40 0).cur % 8 = 0 ∧ (loaded f40 0).cur + 16 ≤ 8 * (loaded f40 0).len ∧
      (loaded f40 0).writtenFrom ((loaded f40 0).cur / 8) 2 :=
  ⟨by decide, by decide, witness_byte_reads.2.2.2.2.2.2.1⟩

theorem witness_RdaddrReadsRawOrder :
    (loaded f40 272).cur % 8 = 0 ∧ (loaded f40 272).cur + 48 ≤ 8 * (loaded f40 272).len ∧
      (loaded f40 272).writtenFrom ((loaded f40 272).cur / 8) 6 :=
  ⟨by decide, by decide, witness_byte_reads.2.2.2.1⟩

/-- The hypotheses of `MixedWidthViewsAgree` and of the first clause of `RdfcIsElevenBitReads` are those of
`RdfcDecodesElevenFields`; the second clause of the latter has a frame of one written byte. -/
theorem witness_RdfcIsElevenBitReads :
    (loaded [0x08] 0).len = 1 ∧ (loaded [0x08] 0).cur = 0 ∧ (loaded [0x08] 0).written 0 = true := by decide

theorem witness_MixedWidthViewsAgree :
    (loaded [0x88, 0x41] 0).cur % 8 = 0 ∧ (loaded [0x88, 0x41] 0).cur + 16 ≤ 8 * (loaded [0x88, 0x41] 0).len ∧
      ∀ j, j < 2 → (loaded [0x88, 0x41] 0).written ((loaded [0x88, 0x41] 0).cur / 8 + j) = true := by decide

/-- One byte left of two, five of six, none: the hypotheses of `RdfcFailsWithoutData`, `Rdu16FailsWithoutData` and
`RdaddrFailsWithoutData`. -/
theorem witness_fails_without_data :
    ((loaded [0x08] 0).cur % 8 = 0 ∧ availBytes (loaded [0x08] 0).len (loaded [0x08] 0).cur < 2) ∧
    ((unloaded 11 48).cur % 8 = 0 ∧ availBytes (unloaded 11 48).len (unloaded 11 48).cur < 6) ∧
    ((unloaded 10 800).cur % 8 = 0 ∧ availBytes (unloaded 10 800).len (unloaded 10 800).cur < 2) := by decide

theorem witness_MisalignedCursorFails :
    bitInByte (unloaded 10 4).cur ≠ 0 ∧ (∃ t, exec .parse (unloaded 10 4) = .next t) ∧
    (∃ t, serve (commandInput 0x10) (loaded [0x88] 0) = .next t ∧ bitInByte (loaded [0x88] 0).cur = 0 ∧
      bitInByte t.cur ≠ 0) ∧
    ∃ t, serve (.write 0x04 7) State.reset = .next t ∧ bitInByte t.cur ≠ 0 :=
  ⟨by decide, ⟨_, rfl⟩, ⟨_, rfl, by decide, by decide⟩, ⟨_, rfl, by decide⟩⟩

theorem witness_ReadersFrame :
    (∃ t, exec .rdfc (loaded f40 0) = .next t) ∧ (∃ t, exec (.rdu16 .crc) (loaded f40 304) = .next t) ∧
      ∃ t, exec (.rdaddr .addr1) (loaded f40 32) = .next t := ⟨⟨_, rfl⟩, ⟨_, rfl⟩, ⟨_, rfl⟩⟩

/-- Two bytes left, and more. -/
theorem witness_SpanLocatesPayload :
    ((unloaded 10 64).cur % 8 = 0 ∧ availBytes (unloaded 10 64).len (unloaded 10 64).cur = 2) ∧
    ((unloaded 40 240).cur % 8 = 0 ∧ 2 ≤ availBytes (unloaded 40 240).len (unloaded 40 240).cur) := by decide

theorem witness_SpanTooShortIsTruncated :
    ((unloaded 10 72).cur % 8 = 0 ∧ availBytes (unloaded 10 72).len (unloaded 10 72).cur < 2) ∧
    (∃ t, exec .span (unloaded 10 0) = .next t ∧ t.payLen = some 8) ∧
    ∃ t, exec .parse (loaded (f40.take 32) 0) = .next t ∧ t.payLen = some 0 := ⟨by decide, ⟨_, rfl, rfl⟩, ⟨_, rfl, rfl⟩⟩

theorem witness_SpanReadsNoByte : ∃ t, exec .span (loaded f40 240) = .next t := ⟨_, rfl⟩

/-- The whole header and the trailer are written, in a frame of 40 bytes and in one of exactly 32. -/
theorem witness_ParseDecodesWholeFrame :
    (32 ≤ (loaded f40 5).len ∧ (∀ j, j < 30 → (loaded f40 5).written (0 + j) = true) ∧
      ∀ j, j < 2 → (loaded f40 5).written ((loaded f40 5).len - 2 + j) = true) ∧
    (32 ≤ (loaded (f40.take 32) 5).len ∧ (∀ j, j < 30 → (loaded (f40.take 32) 5).written (0 + j) = true) ∧
      ∀ j, j < 2 → (loaded (f40.take 32) 5).written ((loaded (f40.take 32) 5).len - 2 + j) = true) ∧
    ∃ t, exec .parse (loaded f40 5) = .next t := by
  refine ⟨by decide, by decide, ⟨_, rfl⟩⟩

/-- T-P2: both ends of every row of the table of 43_assembler.md R89, each with the result the vector gives. -/
theorem witness_ParseFailureIsByLengthAlone :
    [0, 1, 2, 3, 4, 9, 10, 15, 16, 21, 22, 27, 28, 29, 30, 31].map
      (fun n => seen (exec .parse (unloaded n 5)) (fun t => ((statusImage t).toNat, t.errOff))) =
    [(0x0113, 0), (0x0113, 0), (0x0213, 16), (0x0213, 16), (0x0313, 32), (0x0313, 32), (0x0413, 80), (0x0413, 80),
      (0x0513, 128), (0x0513, 128), (0x0613, 176), (0x0613, 176), (0x0713, 224), (0x0713, 224), (0x0823, 240),
      (0x0823, 240)].map some := by decide

theorem witness_ParseIsAllOrNothing :
    (∃ t, exec .parse (loaded f40 5) = .next t ∧ t.status = Status.success) ∧
      ∃ t, exec .parse (unloaded 31 5) = .next t ∧ t.status = Status.failed .truncatedFrame .payload :=
  ⟨⟨_, rfl, rfl⟩, ⟨_, rfl, rfl⟩⟩

/-- Two states of one frame that differ in `CUR`. -/
theorem witness_ParseDependsOnFrameAlone :
    (loaded f40 0).len = (loaded f40 5).len ∧
      (∀ a, a < (loaded f40 0).len → Memory.get (loaded f40 0).buf a = Memory.get (loaded f40 5).buf a) ∧
      ∃ t, exec .parse (loaded f40 0) = .next t := ⟨rfl, fun _ _ => rfl, ⟨_, rfl⟩⟩

theorem witness_ParseIsItsNineSteps : 32 ≤ (loaded (f40.take 32) 5).len ∧ 32 ≤ (unloaded 40 0).len := by decide

/-- A state with a span. -/
def spanned : State := { State.reset with len := 10, payOff := some 0, payLen := some 8 }

theorem witness_SpanIdentity :
    (∃ t, exec .parse (loaded f40 5) = .next t ∧ t.status.err = false) ∧
    (∃ t, exec .span (unloaded 10 64) = .next t ∧ t.status.err = false) ∧
    (∀ v, Input.write 0x04 0 ≠ .write 0x03 v) ∧
      Input.write 0x04 0 ≠ commandInput (encode .span) ∧ Input.write 0x04 0 ≠ commandInput (encode .parse) ∧
      Input.write 0x04 0 ≠ .reset ∧ spanned.payOff = some 0 ∧ spanned.payLen = some 8 ∧ 0 + 8 + 2 = spanned.len ∧
      ∃ t, serve (.write 0x04 0) spanned = .next t :=
  ⟨⟨_, rfl, rfl⟩, ⟨_, rfl, rfl⟩, fun _ h => (by decide : (4 : Nat) ≠ 3) (Input.write.inj h).1, by decide, by decide,
    nofun, rfl, rfl, rfl, ⟨_, rfl⟩⟩

theorem witness_NothingRemainsAfterParse :
    ∃ t, exec .parse (loaded (f40.take 32) 5) = .next t ∧ t.status.err = false := ⟨_, rfl, rfl⟩

theorem witness_AssemblerFrame :
    (∃ t, exec .span (unloaded 40 240) = .next t) ∧ ∃ t, exec .parse (loaded f40 0) = .next t := ⟨⟨_, rfl⟩, ⟨_, rfl⟩⟩

theorem witness_ReplaceFrame :
    [Instr.setfc, .setaddrs, .setdur, .setseq, .setcrc].all
      (fun i => isReplace i && (seen (exec i State.reset) (fun _ => true)).isSome) = true := by decide

/-- Two replacements of different registers that share the operand register, in either order; and one replacement after
another of the same register. -/
theorem witness_ReplaceOperationsCommute :
    isReplace .setdur = true ∧ isReplace .setcrc = true ∧
    [Replacement.duration 1, .crc 2].Perm [.crc 2, .duration 1] ∧
    ([Replacement.duration 1, .crc 2].map Replacement.instr).Nodup ∧
    [Replacement.crc 1, .crc 2] = [.crc 1] ++ .crc 2 :: [] ∧ (∀ x ∈ ([] : List Replacement), x.instr ≠ .setcrc) ∧
    ∀ x ∈ [Replacement.crc 1, .crc 2], x.instr ≠ .setdur := by decide

/-- Every instruction answers a next state somewhere: the hypothesis of `EngineNeverWritesItsInputs`. -/
theorem witness_exec_next :
    [Instr.rdbits .w4, .rdfc, .rdu16 .crc, .rdaddr .addr4, .span, .parse, .setfc, .setaddrs, .setdur, .setseq,
      .setcrc].all (fun i => (seen (exec i (loaded f40 0)) (fun _ => true)).isSome) = true := by decide

/-- The three exemptions of `OnlyTheNamedWriters` leave instructions over. -/
theorem witness_OnlyTheNamedWriters :
    (∀ w, Instr.rdfc ≠ .rdbits w) ∧ Instr.rdfc ≠ .span ∧ Instr.rdfc ≠ .parse ∧ Instr.span ≠ .rdfc ∧ Instr.span ≠ .parse ∧
      Instr.span ≠ .setfc := ⟨nofun, nofun, nofun, nofun, nofun, nofun⟩

/-- The fault of `OnlyUnwrittenFrameBytesStop` does occur. -/
theorem witness_OnlyUnwrittenFrameBytesStop :
    faultOf (exec .rdfc (unloaded 2 0)) = some (.byteHoldsNone 0) ∧
      faultOf (exec .parse (unloaded 32 0)) = some (.byteHoldsNone 0) := by decide

/-- A frame with every byte written but the one at an offset. -/
def holed (a : Nat) (cur : Nat) : State :=
  { loaded f40 cur with buf := (loaded f40 cur).buf.filter (fun c => c.1 ≠ a) }

/-- The first byte an operation reads, and the last, unwritten: a bit field across a byte boundary, two bytes, six, and a
whole frame with its header's last byte or its trailer's last byte missing. -/
theorem witness_UnwrittenByteStopsTheRead :
    (7 + widthBits .w2 ≤ 8 * (holed 1 7).len ∧ 1 < widthBits .w2 ∧ (holed 1 7).written ((7 + 1) / 8) = false ∧
      ∀ j, j < 1 → (holed 1 7).written ((7 + j) / 8) = true) ∧
    ((holed 0 0).cur % 8 = 0 ∧ (holed 0 0).cur + 16 ≤ 8 * (holed 0 0).len ∧ (holed 0 0).written (0 / 8 + 0) = false ∧
      ∀ j, j < 0 → (holed 0 0).written (0 / 8 + j) = true) ∧
    ((holed 39 272).cur % 8 = 0 ∧ (holed 39 272).cur + 48 ≤ 8 * (holed 39 272).len ∧
      (holed 39 272).written (272 / 8 + 5) = false ∧ ∀ j, j < 5 → (holed 39 272).written (272 / 8 + j) = true) ∧
    (32 ≤ (holed 29 0).len ∧ (holed 29 0).written 29 = false ∧
      ∀ b, b < 29 → (b < 30 ∨ (holed 29 0).len - 2 ≤ b) → (holed 29 0).written b = true) ∧
    (32 ≤ (holed 39 0).len ∧ (holed 39 0).len - 2 ≤ 39 ∧ 39 < (holed 39 0).len ∧ (holed 39 0).written 39 = false ∧
      ∀ b, b < 39 → (b < 30 ∨ (holed 39 0).len - 2 ≤ b) → (holed 39 0).written b = true) := by decide

/-- An unwritten byte is no zero: each reading instruction stops at it. A hole in the payload stops none. -/
theorem test_unwritten_byte_stops :
    faultOf (exec (.rdbits .w2) (holed 1 7)) = some (.byteHoldsNone 1) ∧
    faultOf (exec (.rdu16 .crc) (holed 39 304)) = some (.byteHoldsNone 39) ∧
    faultOf (exec (.rdaddr .addr1) (holed 9 32)) = some (.byteHoldsNone 9) ∧
    faultOf (exec .parse (holed 39 0)) = some (.byteHoldsNone 39) ∧ faultOf (exec .parse (holed 31 0)) = none := by decide

theorem witness_WrittenFrameCompletes : (loaded f40 0).frameWritten := by
  show ∀ a, a < (loaded f40 0).len → (loaded f40 0).written a = true
  decide

theorem witness_FailuresArePrecise :
    ∃ t, exec (.rdaddr .addr4) (unloaded 5 0) = .next t ∧ t.status.err = true := ⟨_, rfl, rfl⟩

theorem witness_StatusDescribesLastCommand :
    (∃ t, runCommand 0x60 (loaded f40 0) = .next t ∧ t.status.err = false) ∧ decode 0x60 = .ok .parse ∧
      (∃ t, runCommand 0x13 (loaded f40 0) = .next t ∧ t.status.code = .illegalCommand) ∧ (0x13 : Byte) ∉ legalCommands :=
  ⟨⟨_, rfl, rfl⟩, rfl, ⟨_, rfl, rfl⟩, by decide⟩

/-- Each condition an instruction can raise is raised. -/
theorem witness_ConditionsHaveTheirRaisers :
    (seen (exec .span (unloaded 1 0)) (fun t => t.status.code)) = some .truncatedFrame ∧
    (seen (exec .rdfc (unloaded 10 4)) (fun t => t.status.code)) = some .misalignedCursor ∧
    (seen (exec (.rdbits .w1) (unloaded 0 0)) (fun t => t.status.code)) = some .insufficientData := by decide

/-- The cursor that an instruction moves, and one that stays because the payload is empty. -/
theorem witness_CursorMovesWithinFrame :
    seen (exec .rdfc (loaded f40 304)) (fun t => t.cur) = some 320 ∧
      seen (exec .span (unloaded 32 240)) (fun t => t.cur) = some 240 := by decide

/-- A state that meets the invariant and has work to do. -/
theorem witness_StepKeepsInvariant :
    (sending (.writeBuf 7 0xA5)).Inv ∧ ∃ t, step (sending (.writeBuf 7 0xA5)) = .next t := by
  refine ⟨⟨List.Pairwise.nil, ?_, by decide, by decide, trivial, by decide, ?_, ?_, ?_, ?_⟩, ⟨_, rfl⟩⟩ <;>
    simp [sending, State.reset, State.resetFor]

theorem witness_ResetLeavesTableValues : isReplace .parse = false ∧ isReplace .span = false := by decide

theorem witness_ResetInputRestoresBlock : (sending .reset).inputs = .reset :: [] := rfl

/-- Both sides occur. -/
theorem witness_IllFormedAccessIsRefused :
    Input.wellFormed (sending (.write 0x11 0)).cap (.write 0x11 0) = false ∧ isRefused (step (sending (.write 0x11 0))) = true ∧
    Input.wellFormed (sending (.write 0x03 65535)).cap (.write 0x03 65535) = true ∧
      isRefused (step (sending (.write 0x03 65535))) = false := by decide

/-- The greatest value each register takes. -/
theorem witness_HostWritesRegisters :
    (sending (.write 0x03 65535)).inputs = .write 0x03 65535 :: [] ∧ 65535 ≤ (sending (.write 0x03 65535)).cap ∧
    (sending (.write 0x04 524287)).inputs = .write 0x04 524287 :: [] ∧
      524287 < 2 ^ Config.curWidth (sending (.write 0x04 524287)).cap ∧
    (sending (.write 0x18 65535)).inputs = .write 0x18 65535 :: [] ∧ 65535 < 2 ^ 16 ∧
    (sending (.write 0x19 0)).inputs = .write 0x19 0 :: [] ∧
    (sending (.write (HostReg.argAddr .addr4).index 281474976710655)).inputs =
      .write (HostReg.argAddr .addr4).index 281474976710655 :: [] ∧ 281474976710655 < 2 ^ 48 := by decide

theorem witness_HostReadsRegisters :
    (sending (.read HostReg.len.index)).inputs = .read HostReg.len.index :: [] ∧ HostReg.len ≠ .cmd ∧
      regImage (sending (.read HostReg.len.index)) .len = some 0 ∧
    (sending (.read HostReg.crc.index)).inputs = .read HostReg.crc.index :: [] ∧ HostReg.crc ≠ .cmd ∧
      (sending (.read HostReg.crc.index)).crc.map BitVec.toNat = none := by decide

/-- The reserved indices at the ends of their ranges, and a power of two above a capacity. -/
theorem witness_RegisterTableIsOneToOne :
    ((0x11 ≤ 0x11 ∧ 0x11 ≤ 0x17) ∨ 0x1E ≤ 0x11) ∧ ((0x11 ≤ 0x17 ∧ 0x17 ≤ 0x17) ∨ 0x1E ≤ 0x17) ∧
      ((0x11 ≤ 0x1E ∧ 0x1E ≤ 0x17) ∨ 0x1E ≤ 0x1E) ∧ 65535 < 2 ^ 16 := by decide

/-- The last byte of the window. -/
theorem witness_HostWritesBuffer :
    (sending (.writeBuf 65534 0)).inputs = .writeBuf 65534 0 :: [] ∧ 65534 < (sending (.writeBuf 65534 0)).cap := by decide

/-- An unwritten byte below `LEN`, and one at it. -/
theorem witness_HostReadsUnwrittenByte :
    ({ sending (.readBuf 3) with len := 4 }.inputs = .readBuf 3 :: [] ∧ 3 < (sending (.readBuf 3)).cap ∧
      { sending (.readBuf 3) with len := 4 }.written 3 = false) ∧
    ({ sending (.readBuf 4) with len := 4 }.inputs = .readBuf 4 :: [] ∧ 4 < (sending (.readBuf 4)).cap ∧
      { sending (.readBuf 4) with len := 4 }.written 4 = false ∧ 4 ≤ { sending (.readBuf 4) with len := 4 }.len) := by
  decide

/-- A write keeps the cells sorted and replaces the one that is there (log 7). -/
theorem test_memory_canonical :
    Memory.set (Memory.set (Memory.set [] 5 1) 2 2) 5 3 = [(2, 2), (5, 3)] := by decide

end Sys2Proof.Tests
end

section
/-! The invariant of the state: which fields it speaks of, what keeps it, and that every step does. -/

namespace Sys2Proof.Machine

/-! Spans. -/

/-- Whether the span fits depends on `CAP` and the two span registers alone. -/
theorem State.spanFits_congr {s t : State} (hcap : t.cap = s.cap) (hoff : t.payOff = s.payOff)
    (hlen : t.payLen = s.payLen) : t.spanFits ↔ s.spanFits := by
  unfold State.spanFits
  rw [hcap, hoff, hlen]

/-- Cleared span registers fit. -/
theorem State.spanFits_of_none {s : State} (hoff : s.payOff = none) (hlen : s.payLen = none) : s.spanFits := by
  unfold State.spanFits
  rw [hoff, hlen]
  trivial

/-- A span that ends before the trailer of a frame that fits `CAP` fits. -/
theorem State.spanFits_of_some {s : State} {off n : Nat} (hoff : s.payOff = some off) (hlen : s.payLen = some n)
    (h : off + n + 2 ≤ s.cap) : s.spanFits := by
  unfold State.spanFits
  rw [hoff, hlen]
  exact h

/-! Failures: every one has a code and a stage, and an offset within its register. -/

/-- Every condition has a code of its own (60_exceptions.md R103). -/
@[simp] theorem Condition.code_ne_none (c : Condition) : c.code ≠ .none := by cases c <;> decide

@[simp] theorem u16Stage_ne_none (rd : U16Reg) : u16Stage rd ≠ .none := by cases rd <;> decide

@[simp] theorem addrStage_ne_none (ra : AddrReg) : addrStage ra ≠ .none := by cases ra <;> decide

/-- A byte-granular field fails at its own stage and cursor. -/
theorem takeField_error_at {len c n : Nat} {st : Stage} {f : Failure} (hn : 0 < n)
    (h : takeField len c n st = .error f) : f.stage = st ∧ f.off = c := by
  obtain ⟨-, rfl⟩ | ⟨-, -, rfl⟩ := (takeField_error_iff hn).1 h <;> exact ⟨rfl, rfl⟩

/-- The span step fails at stage `PAYLOAD` and at its cursor. -/
theorem takeSpan_error_at {len c : Nat} {f : Failure} (h : takeSpan len c = .error f) :
    f.stage = .payload ∧ f.off = c := by
  obtain ⟨-, rfl⟩ | ⟨-, -, rfl⟩ := takeSpan_error_iff.1 h <;> exact ⟨rfl, rfl⟩

/-- `PARSE` fails at a stage of the table of 43_assembler.md R89. -/
theorem parseFailure_stage_ne_none (len : Nat) : (parseFailure len).stage ≠ .none := by
  unfold parseFailure
  repeat' split
  all_goals exact nofun

/-- `PARSE` fails at an offset no later than the end of the frame. -/
theorem parseFailure_off_le (len : Nat) : (parseFailure len).off ≤ 8 * len := by
  unfold parseFailure
  repeat' split
  all_goals dsimp only; omega

/-! The two ways an operation ends. -/

/-- A failure with a stage, raised at an offset its register holds, keeps the invariant. -/
theorem State.Inv.raise {s : State} {ds : List Dest} {f : Failure} (h : s.Inv) (hstage : f.stage ≠ .none)
    (hoff : f.off < 2 ^ Config.curWidth s.cap) (hspan : (raise ds f s).spanFits) : (raise ds f s).Inv where
  bufSorted := by simpa using h.bufSorted
  bufBelowCap := by simpa using h.bufBelowCap
  lenFits := by simpa using h.lenFits
  curFits := by simpa using h.curFits
  span := hspan
  errOffFits := by simpa using hoff
  errIffCode := by simp
  codeIffStage := by simp [hstage]
  successOffset := by simp
  doneIfErr := by simp

/-- A success that leaves the buffer, `LEN` and `CAP` alone, with a cursor and a span that fit, keeps the invariant. -/
theorem State.Inv.succeed {s t : State} (h : s.Inv) (hcap : t.cap = s.cap) (hbuf : t.buf = s.buf)
    (hlen : t.len = s.len) (hcur : t.cur < 2 ^ Config.curWidth s.cap) (hspan : t.spanFits) : (succeed t).Inv where
  bufSorted := by simpa [hbuf] using h.bufSorted
  bufBelowCap := by simpa [hbuf, hcap] using h.bufBelowCap
  lenFits := by simpa [hlen, hcap] using h.lenFits
  curFits := by simpa [hcap] using hcur
  span := hspan
  errOffFits := Nat.two_pow_pos _
  errIffCode := by simp
  codeIffStage := by simp
  successOffset := by simp
  doneIfErr := by simp

/-- A cursor within the frame fits its register. -/
theorem State.Inv.lt_curWidth_of_le {s : State} {c : Nat} (h : s.Inv) (hc : c ≤ 8 * s.len) :
    c < 2 ^ Config.curWidth s.cap :=
  lt_curWidth (Nat.le_trans hc (Nat.mul_le_mul_left 8 h.lenFits))

/-! The instructions keep the invariant. -/

theorem execRdbits_keeps_inv {w : Width} {s t : State} (h : s.Inv) (he : execRdbits w s = .next t) : t.Inv := by
  obtain ⟨-, rfl⟩ | ⟨hl, -, rfl⟩ := execRdbits_next he
  · exact h.raise nofun h.curFits h.span
  · exact h.succeed rfl rfl rfl (h.lt_curWidth_of_le hl) h.span

theorem execRdfc_keeps_inv {s t : State} (h : s.Inv) (he : execRdfc s = .next t) : t.Inv := by
  obtain ⟨f, hf, rfl⟩ | ⟨-, hl, -, rfl⟩ := execRdfc_next he
  · obtain ⟨hstage, hoff⟩ := takeField_error_at (by decide) hf
    exact h.raise (hstage ▸ nofun) (hoff ▸ h.curFits) h.span
  · exact h.succeed rfl rfl rfl (h.lt_curWidth_of_le hl) h.span

theorem execRdu16_keeps_inv {rd : U16Reg} {s t : State} (h : s.Inv) (he : execRdu16 rd s = .next t) : t.Inv := by
  have hspan (v : Option Word) : (setU16 rd v s).spanFits :=
    (State.spanFits_congr (setU16_cap ..) (setU16_payOff ..) (setU16_payLen ..)).2 h.span
  obtain ⟨f, hf, rfl⟩ | ⟨-, hl, -, rfl⟩ := execRdu16_next he
  · obtain ⟨hstage, hoff⟩ := takeField_error_at (by decide) hf
    exact h.raise (hstage ▸ u16Stage_ne_none rd) (hoff ▸ h.curFits) (hspan none)
  · exact h.succeed (setU16_cap ..) (setU16_buf ..) (setU16_len ..) (h.lt_curWidth_of_le hl) (hspan _)

theorem execRdaddr_keeps_inv {ra : AddrReg} {s t : State} (h : s.Inv) (he : execRdaddr ra s = .next t) : t.Inv := by
  have hspan (v : Option Address) : (setAddr ra v s).spanFits :=
    (State.spanFits_congr (setAddr_cap ..) (setAddr_payOff ..) (setAddr_payLen ..)).2 h.span
  obtain ⟨f, hf, rfl⟩ | ⟨-, hl, -, rfl⟩ := execRdaddr_next he
  · obtain ⟨hstage, hoff⟩ := takeField_error_at (by decide) hf
    exact h.raise (hstage ▸ addrStage_ne_none ra) (hoff ▸ h.curFits) (hspan none)
  · exact h.succeed (setAddr_cap ..) (setAddr_buf ..) (setAddr_len ..) (h.lt_curWidth_of_le hl) (hspan _)

/-- `SPAN` leaves the trailer room: the span it finds ends two bytes before `LEN` (43_assembler.md R84). -/
theorem execSpan_keeps_inv {s t : State} (h : s.Inv) (he : execSpan s = .next t) : t.Inv := by
  obtain ⟨f, hf, rfl⟩ | ⟨-, hl, rfl⟩ := execSpan_next he
  · obtain ⟨hstage, hoff⟩ := takeSpan_error_at hf
    exact h.raise (hstage ▸ nofun) (hoff ▸ h.curFits) (State.spanFits_of_none rfl rfl)
  · have hroom : s.cur / 8 + (s.len - s.cur / 8 - 2) + 2 ≤ s.cap := by
      have := h.lenFits
      omega
    exact h.succeed rfl rfl rfl (h.lt_curWidth_of_le (Nat.sub_le ..)) (State.spanFits_of_some rfl rfl hroom)

/-- `PARSE` finds the span between a header of 30 bytes and the trailer (43_assembler.md R88). -/
theorem execParse_keeps_inv {s t : State} (h : s.Inv) (he : execParse s = .next t) : t.Inv := by
  obtain ⟨-, rfl⟩ | ⟨hl, -, -, rfl⟩ := execParse_next he
  · exact h.raise (parseFailure_stage_ne_none _) (h.lt_curWidth_of_le (parseFailure_off_le _))
      (State.spanFits_of_none rfl rfl)
  · have hroom : 30 + (s.len - 32) + 2 ≤ s.cap := by
      have := h.lenFits
      omega
    exact h.succeed rfl rfl rfl (h.lt_curWidth_of_le (Nat.le_refl _)) (State.spanFits_of_some rfl rfl hroom)

/-- Every instruction keeps the invariant. The replace operations write record registers alone, of which it says
nothing. -/
theorem exec_keeps_inv {i : Instr} {s t : State} (h : s.Inv) (he : exec i s = .next t) : t.Inv := by
  cases i with
  | rdbits w => exact execRdbits_keeps_inv h he
  | rdfc => exact execRdfc_keeps_inv h he
  | rdu16 rd => exact execRdu16_keeps_inv h he
  | rdaddr ra => exact execRdaddr_keeps_inv h he
  | span => exact execSpan_keeps_inv h he
  | parse => exact execParse_keeps_inv h he
  | setfc => cases he; exact h.succeed rfl rfl rfl h.curFits h.span
  | setaddrs => cases he; exact h.succeed rfl rfl rfl h.curFits h.span
  | setdur => cases he; exact h.succeed rfl rfl rfl h.curFits h.span
  | setseq => cases he; exact h.succeed rfl rfl rfl h.curFits h.span
  | setcrc => cases he; exact h.succeed rfl rfl rfl h.curFits h.span

/-- Every command byte keeps the invariant, reserved ones included. -/
theorem runCommand_keeps_inv {b : Byte} {s t : State} (h : s.Inv) (hr : runCommand b s = .next t) : t.Inv := by
  unfold runCommand at hr
  split at hr
  · exact exec_keeps_inv h hr
  · cases hr
    exact h.raise nofun (Nat.two_pow_pos _) h.span

/-! The host's inputs keep the invariant. -/

/-- The reset values meet the invariant at every capacity (10_state.md R34). -/
theorem resetFor_inv (cap : Nat) : (State.resetFor cap).Inv where
  bufSorted := List.Pairwise.nil
  bufBelowCap := nofun
  lenFits := Nat.zero_le _
  curFits := Nat.two_pow_pos _
  span := trivial
  errOffFits := Nat.two_pow_pos _
  errIffCode := by simp [State.resetFor]
  codeIffStage := by simp [State.resetFor]
  successOffset := fun _ => rfl
  doneIfErr := nofun

/-- A byte written below `CAP` leaves every cell below `CAP`. -/
theorem Memory.set_below {m : Memory} {a n : Nat} (b : Byte) (ha : a < n) (h : ∀ c, c ∈ m → c.1 < n) :
    ∀ c, c ∈ Memory.set m a b → c.1 < n := by
  intro c hc
  rcases Memory.mem_set hc with rfl | hc
  · exact ha
  · exact h c hc

/-- An address operand register is none of the fields the invariant speaks of. -/
theorem State.Inv.setArgAddr {s : State} (h : s.Inv) (ra : AddrReg) (x : Address) : (setArgAddr ra x s).Inv := by
  cases ra <;> exact { h with }

/-- Every served input keeps the invariant. -/
theorem serve_keeps_inv {x : Input} {s t : State} (h : s.Inv) (hs : serve x s = .next t) : t.Inv := by
  obtain ⟨_, -, hr⟩ | ⟨v, -, hv, rfl⟩ | ⟨v, -, hv, rfl⟩ | ⟨v, -, -, rfl⟩ | ⟨v, -, -, rfl⟩ | ⟨ra, v, -, -, rfl⟩ |
    ⟨_, v, -, rfl⟩ | ⟨a, b, -, ha, rfl⟩ | ⟨_, v, d, -, rfl⟩ | ⟨-, rfl⟩ := serve_next hs
  · exact runCommand_keeps_inv h hr
  · exact { h with lenFits := hv }
  · exact { h with curFits := hv }
  · exact { h with }
  · exact { h with }
  · exact h.setArgAddr ra _
  · exact { h with }
  · exact { h with
      bufSorted := Memory.wf_set a b h.bufSorted, bufBelowCap := Memory.set_below b ha h.bufBelowCap }
  · exact { h with }
  · exact { resetFor_inv s.cap with }

/-- Settles O49: an idle step changes nothing, and a step that serves an input keeps the invariant as that input does. -/
theorem stepKeepsInvariant : Obligations.StepKeepsInvariant := by
  intro s t h hstep
  obtain ⟨-, rfl⟩ | ⟨x, rest, -, hs⟩ := step_next hstep
  · exact h
  · have h' : State.Inv { s with inputs := rest } := { h with }
    exact serve_keeps_inv h' hs

end Sys2Proof.Machine
end

section
/-! The host's reads: of the register table and of the buffer window. -/

namespace Sys2Proof.Machine

/-- A step with an input pending serves it. -/
theorem step_of_inputs {s : State} {x : Input} {rest : List Input} (h : s.inputs = x :: rest) :
    step s = serve x { s with inputs := rest } := by
  unfold step
  rw [h]

/-- Every register stands in the table at its index (10_state.md R27). -/
@[simp] theorem hostRegAt_index (r : HostReg) : hostRegAt r.index = some r := by
  cases r with
  | addr ra => cases ra <;> rfl
  | argAddr ra => cases ra <;> rfl
  | _ => rfl

/-- The host may read every register but `CMD` (10_state.md R27). -/
theorem HostReg.readable_of_ne_cmd {r : HostReg} (h : r ≠ .cmd) : r.readable = true := by
  cases r with
  | cmd => exact absurd rfl h
  | _ => rfl

/-- A register's image does not depend on the inputs still to come. -/
@[simp] theorem regImage_inputs (s : State) (rest : List Input) (r : HostReg) :
    regImage { s with inputs := rest } r = regImage s r := by
  cases r with
  | addr ra => cases ra <;> rfl
  | argAddr ra => cases ra <;> rfl
  | _ => rfl

/-- `FC` shows the sum of its fields at their places (10_state.md R19). -/
theorem regImage_fc (s : State) : regImage s .fc = s.fc.map FrameControl.number := by
  simp only [regImage, wordOfFc_toNat]

/-- An address shows its six bytes, the first the most significant (10_state.md R21). -/
theorem regImage_addr (s : State) (ra : AddrReg) : regImage s (.addr ra) = (getAddr ra s).map Address.number := by
  simp only [regImage, imageOfAddr_toNat]

/-- The contents of an address operand register. -/
def getArgAddr (ra : AddrReg) (s : State) : Option Address :=
  match ra with
  | .addr1 => s.argAddr1
  | .addr2 => s.argAddr2
  | .addr3 => s.argAddr3
  | .addr4 => s.argAddr4

/-- An address operand shows its six bytes, the first the most significant (10_state.md R21, R29). -/
theorem regImage_argAddr (s : State) (ra : AddrReg) :
    regImage s (.argAddr ra) = (getArgAddr ra s).map Address.number := by
  cases ra <;> simp only [regImage, getArgAddr, imageOfAddr_toNat]

/-- A step that reads a register with a value gives that value as the reply. -/
theorem step_read_of_some {s : State} {r : HostReg} {rest : List Input} {v : Nat} (hin : s.inputs = .read r.index :: rest)
    (hr : r ≠ .cmd) (hv : regImage s r = some v) : step s = .next { s with inputs := rest, reply := some v } := by
  simp only [step_of_inputs hin, serve, hostRegAt_index, readRegister, HostReg.readable_of_ne_cmd hr, if_true,
    regImage_inputs, hv]

/-- A step that reads a register without a value stops with a fault that names it. -/
theorem step_read_of_none {s : State} {r : HostReg} {rest : List Input} (hin : s.inputs = .read r.index :: rest)
    (hr : r ≠ .cmd) (hv : regImage s r = none) : step s = .fault (.registerHoldsNone r) := by
  simp only [step_of_inputs hin, serve, hostRegAt_index, readRegister, HostReg.readable_of_ne_cmd hr, if_true,
    regImage_inputs, hv]

/-- Settles O55: what a register shows is its image, and a read answers by whether there is one. -/
theorem hostReadsRegisters : Obligations.HostReadsRegisters := by
  intro s r rest shown hin hr hshown
  have himage : shown = regImage s r := by
    cases r with
    | cmd => exact absurd rfl hr
    | fc => exact hshown.trans (regImage_fc s).symm
    | addr ra => rw [regImage_addr]; cases ra <;> exact hshown
    | argAddr ra => rw [regImage_argAddr]; cases ra <;> exact hshown
    | _ => exact hshown
  refine ⟨fun v hv => ?_, fun hnone => ?_, himage⟩
  · exact step_read_of_some hin hr (himage.symm.trans hv)
  · exact step_read_of_none hin hr (himage.symm.trans hnone)

/-- A byte is unwritten where the buffer gives none. -/
theorem written_eq_false_iff {s : State} {a : Nat} : s.written a = false ↔ Memory.get s.buf a = none := by
  simp [State.written]

/-- Settles O57: a window read of an unwritten byte stops below `LEN` and draws a free value from there on. -/
theorem hostReadsUnwrittenByte : Obligations.HostReadsUnwrittenByte := by
  intro s a rest hin hcap hunwritten
  have hget := written_eq_false_iff.1 hunwritten
  refine ⟨fun hlt => ?_, fun hge => ⟨Config.freeByte s.draws, ?_⟩⟩
  · simp only [step_of_inputs hin, serve, readWindow, hcap, if_true, hget, hlt]
  · simp only [step_of_inputs hin, serve, readWindow, hcap, if_true, hget, Nat.not_lt.2 hge, if_false]

end Sys2Proof.Machine
end

section
/-! The images of `FC` and of `STATUS`, slice by slice. -/

namespace Sys2Proof.Machine

/-- What a number shows from one place on is a slice and, above it, what it shows from the slice's end on. -/
theorem slice_add_rest (n k w : Nat) : n / 2 ^ k % 2 ^ w + 2 ^ w * (n / 2 ^ (k + w)) = n / 2 ^ k := by
  rw [Nat.pow_add, ← Nat.div_div_eq_div_mul, Nat.mod_add_div]

/-- Packing the fields of an image gives the image back: the eleven slices lie side by side from bit 0 to bit 15
(10_state.md R19). -/
theorem wordOfFc_fcOfWord (w : Word) : wordOfFc (fcOfWord w) = w := by
  apply BitVec.eq_of_toNat_eq
  rw [wordOfFc_toNat]
  simp only [FrameControl.number, fcOfWord, BitVec.extractLsb'_toNat, Nat.shiftRight_eq_div_pow]
  have hbottom : w.toNat / 2 ^ 0 = w.toNat := Nat.div_one _
  have htop : w.toNat / 2 ^ 16 = 0 := Nat.div_eq_of_lt w.isLt
  have glue := slice_add_rest w.toNat
  grind only [glue 0 1, glue 1 1, glue 2 1, glue 3 1, glue 4 1, glue 5 1, glue 6 1, glue 7 1,
    glue 8 4, glue 12 2, glue 14 2]

/-- A slice of a word from its number. -/
theorem extractLsb'_eq_of_toNat {n k m : Nat} {x : BitVec n} {y : BitVec m}
    (h : x.toNat / 2 ^ k % 2 ^ m = y.toNat) : x.extractLsb' k m = y := by
  apply BitVec.eq_of_toNat_eq
  rw [BitVec.extractLsb'_toNat, Nat.shiftRight_eq_div_pow, h]

/-- A bit of a word from its number. -/
theorem getLsbD_eq_of_toNat {n k : Nat} {x : BitVec n} {b : Bool} (h : x.toNat / 2 ^ k % 2 = b.toNat) :
    x.getLsbD k = b := by
  rw [BitVec.getLsbD, Nat.testBit_eq_decide_div_mod_eq, h]
  cases b <;> rfl

/-- Unpacking the image of eleven fields gives the fields back (10_state.md R19). -/
theorem fcOfWord_wordOfFc (f : FrameControl) : fcOfWord (wordOfFc f) = f := by
  have himage := wordOfFc_toNat f
  obtain ⟨version, ftype, subtype, toDs, fromDs, moreFragments, retry, powerMgmt, moreData, wep, order⟩ := f
  simp only [FrameControl.number] at himage
  unfold fcOfWord
  congr 1 <;> exact extractLsb'_eq_of_toNat (by rw [himage]; omega)

/-- Settles O15: packing and unpacking undo each other. -/
theorem frameControlImageIsBijection : Obligations.FrameControlImageIsBijection :=
  ⟨wordOfFc_fcOfWord, fcOfWord_wordOfFc⟩

/-- The image of `STATUS` is the number that has each of its fields at its place (10_state.md R25). -/
theorem statusImage_toNat (s : State) :
    (statusImage s).toNat = (spanValid s).toNat * 2 ^ 13 + (recValid s).toNat * 2 ^ 12
      + (stageNumber s.status.stage).toNat * 2 ^ 8 + (codeNumber s.status.code).toNat * 2 ^ 4
      + s.status.err.toNat * 2 + s.status.done.toNat := by
  unfold statusImage
  repeat rw [toNat_append_add]
  simp only [BitVec.toNat_ofBool, BitVec.toNat_ofNat]
  omega

/-- `REC_VALID` says that no record register holds `none`. -/
theorem recValid_iff (s : State) :
    recValid s = true ↔
      s.fc ≠ none ∧ s.duration ≠ none ∧ s.addr1 ≠ none ∧ s.addr2 ≠ none ∧ s.addr3 ≠ none ∧ s.addr4 ≠ none ∧
        s.seqControl ≠ none ∧ s.crc ≠ none := by
  simp only [recValid, Bool.and_eq_true, Option.isSome_iff_ne_none, and_assoc]

/-- `SPAN_VALID` says that neither span register holds `none`. -/
theorem spanValid_iff (s : State) : spanValid s = true ↔ s.payOff ≠ none ∧ s.payLen ≠ none := by
  simp only [spanValid, Bool.and_eq_true, Option.isSome_iff_ne_none]

/-- Settles O58: each field is a slice of the number that the image is. -/
theorem statusImageFields : Obligations.StatusImageFields := by
  intro s
  have himage := statusImage_toNat s
  have hspan := (spanValid s).toNat_lt
  have hrec := (recValid s).toNat_lt
  have hstage := (stageNumber s.status.stage).isLt
  have hcode := (codeNumber s.status.code).isLt
  have herr := s.status.err.toNat_lt
  have hdone := s.status.done.toNat_lt
  have codeSlice : (statusImage s).extractLsb' 4 4 = codeNumber s.status.code :=
    extractLsb'_eq_of_toNat (by omega)
  have stageSlice : (statusImage s).extractLsb' 8 4 = stageNumber s.status.stage :=
    extractLsb'_eq_of_toNat (by omega)
  have recBit : (statusImage s).getLsbD 12 = recValid s := getLsbD_eq_of_toNat (by omega)
  have spanBit : (statusImage s).getLsbD 13 = spanValid s := getLsbD_eq_of_toNat (by omega)
  refine ⟨?done, ?err, ?low, ?high, ?code, ?stage, ?recValid, ?spanValid⟩
  case done => exact getLsbD_eq_of_toNat (by omega)
  case err => exact getLsbD_eq_of_toNat (by omega)
  case low => exact extractLsb'_eq_of_toNat (show (statusImage s).toNat / 2 ^ 2 % 2 ^ 2 = 0 by omega)
  case high => exact extractLsb'_eq_of_toNat (show (statusImage s).toNat / 2 ^ 14 % 2 ^ 2 = 0 by omega)
  case code => rw [codeSlice]; cases s.status.code <;> rfl
  case stage => rw [stageSlice]; cases s.status.stage <;> rfl
  case recValid => rw [recBit, recValid_iff]
  case spanValid => rw [spanBit, spanValid_iff]

end Sys2Proof.Machine
end

section
/-! The host's register table, its writes, and which accesses are refused. -/

namespace Sys2Proof.Machine

/-- The table finds a register at a number exactly when the number is its index (10_state.md R27). -/
theorem hostRegAt_eq_some_iff {n : Nat} {r : HostReg} : hostRegAt n = some r ↔ r.index = n := by
  constructor
  · intro h
    unfold hostRegAt at h
    split at h <;> cases h <;> rfl
  · rintro rfl
    exact hostRegAt_index r

/-- The indices in use end at 0x10 and run again from 0x18 to 0x1D (10_state.md R27). -/
theorem HostReg.index_range (r : HostReg) : r.index ≤ 0x10 ∨ (0x18 ≤ r.index ∧ r.index ≤ 0x1D) := by
  cases r with
  | addr ra => cases ra <;> decide
  | argAddr ra => cases ra <;> decide
  | _ => decide

/-- `AW` bits hold `CAP` (00_scope.md R9). -/
theorem lt_two_pow_addrWidth (cap : Nat) : cap < 2 ^ Config.addrWidth cap := by
  unfold Config.addrWidth
  split
  · omega
  · exact Nat.lt_log2_self

/-- No width below `AW` holds `CAP` (00_scope.md R9). -/
theorem addrWidth_le {cap m : Nat} (h : cap < 2 ^ m) : Config.addrWidth cap ≤ m := by
  unfold Config.addrWidth
  split
  · exact Nat.zero_le m
  · exact (Nat.log2_lt ‹_›).2 h

/-- Settles O59: the rows of the table one by one, and the indices that have none. -/
theorem registerTableIsOneToOne : Obligations.RegisterTableIsOneToOne := by
  refine ⟨fun cap r => ?_, fun n r => hostRegAt_eq_some_iff, fun n hn => ?_, fun cap => ?_⟩
  · cases r with
    | addr ra => cases ra <;> rfl
    | argAddr ra => cases ra <;> rfl
    | _ => rfl
  · refine Option.eq_none_iff_forall_ne_some.2 fun r hr => ?_
    obtain rfl := hostRegAt_eq_some_iff.1 hr
    have := HostReg.index_range r
    omega
  · exact ⟨lt_two_pow_addrWidth cap, fun m => addrWidth_le, rfl⟩

/-! What the host's writes do. -/

/-- The image of the address with a 48-bit image is that image (10_state.md R21). -/
theorem imageOfAddr_addrOfImage (v : BitVec 48) : imageOfAddr (addrOfImage v) = v := by
  apply BitVec.eq_of_toNat_eq
  rw [imageOfAddr_toNat]
  simp only [Address.number, addrOfImage, BitVec.extractLsb'_toNat, Nat.shiftRight_eq_div_pow]
  omega

/-- An address operand register shows the image of the address written to it. -/
theorem regImage_setArgAddr (ra : AddrReg) (x : Address) (s : State) :
    regImage (setArgAddr ra x s) (.argAddr ra) = some (imageOfAddr x).toNat := by
  cases ra <;> rfl

/-- A write at a register's index writes that register. -/
theorem serve_write_index (r : HostReg) (v : Nat) (s : State) :
    serve (.write r.index v) s = writeRegister r v s := by
  simp only [serve, hostRegAt_index]

/-- Settles O54: a write that the register admits puts the value there. -/
theorem hostWritesRegisters : Obligations.HostWritesRegisters := by
  intro s v rest
  refine ⟨fun hin hv => ?_, fun hin hv => ?_, fun hin hv => ?_, fun hin hv => ?_, fun ra hin hv => ?_⟩
  · rw [step_of_inputs hin]
    exact (serve_write_index .len v _).trans (if_pos hv)
  · rw [step_of_inputs hin]
    exact (serve_write_index .cur v _).trans (writeIfFits_of_lt _ hv)
  · rw [step_of_inputs hin]
    exact (serve_write_index .argFc v _).trans (writeIfFits_of_lt _ hv)
  · rw [step_of_inputs hin]
    exact (serve_write_index .argU16 v _).trans (writeIfFits_of_lt _ hv)
  · refine ⟨setArgAddr ra (addrOfImage (BitVec.ofNat 48 v)) { s with inputs := rest }, ?_, ?_, _, rfl⟩
    · rw [step_of_inputs hin, serve_write_index]
      exact writeIfFits_of_lt _ hv
    · rw [regImage_setArgAddr, imageOfAddr_addrOfImage, BitVec.toNat_ofNat, Nat.mod_eq_of_lt hv]

/-- A step that reads a written byte of the window gives that byte as the reply. -/
theorem step_readBuf_of_some {s : State} {a : Nat} {b : Byte} {rest : List Input} (hin : s.inputs = .readBuf a :: rest)
    (ha : a < s.cap) (hb : Memory.get s.buf a = some b) :
    step s = .next { s with inputs := rest, reply := some b.toNat } := by
  simp only [step_of_inputs hin, serve, readWindow, ha, if_true, hb]

/-- Settles O56: the window is the buffer, and a write to the buffer writes one byte of it. -/
theorem hostWritesBuffer : Obligations.HostWritesBuffer := by
  intro s a b rest hin ha
  refine ⟨{ s with inputs := rest, buf := Memory.set s.buf a b }, ?_, Memory.get_set_same _ _ _,
    fun x hx => Memory.get_set_other _ b hx, rfl, fun more => ?_⟩
  · simp only [step_of_inputs hin, serve, writeWindow, ha, if_true]
  · exact step_readBuf_of_some rfl ha (Memory.get_set_same _ _ _)

/-! Which accesses are refused. -/

/-- An instruction is never refused. -/
theorem exec_ne_refused (i : Instr) (s : State) (r : Refusal) : exec i s ≠ .refused r := by
  cases i with
  | rdbits w => exact finish_ne_refused _ _ _ _ r
  | rdfc => exact finish_ne_refused _ _ _ _ r
  | rdu16 rd => exact finish_ne_refused _ _ _ _ r
  | rdaddr ra => exact finish_ne_refused _ _ _ _ r
  | span =>
    show execSpan s ≠ .refused r
    exact finish_ne_refused _ _ _ _ r
  | parse => exact finish_ne_refused _ _ _ _ r
  | setfc | setaddrs | setdur | setseq | setcrc => exact nofun

/-- A command byte is never refused, a reserved one neither. -/
theorem runCommand_ne_refused (b : Byte) (s : State) (r : Refusal) : runCommand b s ≠ .refused r := by
  unfold runCommand
  split
  · exact exec_ne_refused _ s r
  · exact nofun

/-- A write is refused for its width alone, where what it starts is not refused. -/
theorem writeIfFits_refused_iff {r : HostReg} {v : Nat} {s : State} {k : Host.Outcome State Fault Refusal}
    (hk : ∀ x, k ≠ .refused x) : (∃ x, writeIfFits r v s k = .refused x) ↔ ¬ v < 2 ^ r.width s.cap := by
  unfold writeIfFits
  split <;> simp [*]

/-- A write to a register is refused exactly when the register is read only or cannot take the value. -/
theorem writeRegister_refused_iff (r : HostReg) (v : Nat) (s : State) :
    (∃ x, writeRegister r v s = .refused x) ↔ (r.writable && wellFormedValue s.cap r v) = false := by
  have fits {p : Prop} [Decidable p] : (true && decide p) = false ↔ ¬ p := by simp
  cases r with
  | cmd => exact (writeIfFits_refused_iff (runCommand_ne_refused _ s)).trans fits.symm
  | len =>
    refine Iff.trans ?_ fits.symm
    simp only [writeRegister]
    split <;> simp [*]
  | cur => exact (writeIfFits_refused_iff (k := .next _) nofun).trans fits.symm
  | argFc => exact (writeIfFits_refused_iff (k := .next _) nofun).trans fits.symm
  | argU16 => exact (writeIfFits_refused_iff (k := .next _) nofun).trans fits.symm
  | argAddr ra => exact (writeIfFits_refused_iff (k := .next _) nofun).trans fits.symm
  | _ => exact ⟨fun _ => rfl, fun _ => ⟨_, rfl⟩⟩

/-- A read of a register is refused exactly when the register is write only. -/
theorem readRegister_refused_iff (r : HostReg) (s : State) :
    (∃ x, readRegister r s = .refused x) ↔ r.readable = false := by
  unfold readRegister
  split
  · split <;> simp [*]
  · simp [*]

/-- An input is refused exactly when it is an access without a meaning (70_reset_and_hazards.md R131). -/
theorem serve_refused_iff (x : Input) (s : State) : (∃ r, serve x s = .refused r) ↔ x.wellFormed s.cap = false := by
  cases x with
  | write n v =>
    cases hr : hostRegAt n with
    | none => simp [serve, Input.wellFormed, hr]
    | some r => simpa only [serve, Input.wellFormed, hr] using writeRegister_refused_iff r v s
  | read n =>
    cases hr : hostRegAt n with
    | none => simp [serve, Input.wellFormed, hr]
    | some r => simpa only [serve, Input.wellFormed, hr] using readRegister_refused_iff r s
  | writeBuf a b =>
    by_cases ha : a < s.cap <;> simp [serve, writeWindow, Input.wellFormed, ha]
  | readBuf a =>
    by_cases ha : a < s.cap
    · simp only [serve, readWindow, Input.wellFormed, ha, if_true]
      repeat' split
      all_goals simp
    · simp [serve, readWindow, Input.wellFormed, ha]
  | reset => simp [serve, Input.wellFormed]

/-- A well-formed write is one to a register that the host may write, of a value that it takes. -/
theorem wellFormed_write_iff {cap n v : Nat} :
    (Input.write n v).wellFormed cap = true ↔
      ∃ r : HostReg, r.index = n ∧ r.writable = true ∧ wellFormedValue cap r v = true := by
  simp only [← hostRegAt_eq_some_iff]
  cases hr : hostRegAt n <;> simp [Input.wellFormed, hr]

/-- A well-formed read is one of a register that the host may read. -/
theorem wellFormed_read_iff {cap n : Nat} :
    (Input.read n).wellFormed cap = true ↔ ∃ r : HostReg, r.index = n ∧ r.readable = true := by
  simp only [← hostRegAt_eq_some_iff]
  cases hr : hostRegAt n <;> simp [Input.wellFormed, hr]

/-- The well-formed writes in the numbers of the table (10_state.md R16, R27). -/
theorem wellFormed_write_iff_numbers {cap n v : Nat} :
    (Input.write n v).wellFormed cap = true ↔
      (n = 0x00 ∧ v < 2 ^ 8) ∨ (n = 0x03 ∧ v ≤ cap) ∨ (n = 0x04 ∧ v < 2 ^ Config.curWidth cap) ∨
        ((n = 0x18 ∨ n = 0x19) ∧ v < 2 ^ 16) ∨ (0x1A ≤ n ∧ n ≤ 0x1D ∧ v < 2 ^ 48) := by
  rw [wellFormed_write_iff]
  constructor
  · rintro ⟨r, rfl, hw, hv⟩
    cases r with
    | argAddr ra => cases ra <;> simpa [HostReg.index, HostReg.width] using of_decide_eq_true hv
    | cmd | len | cur | argFc | argU16 => simpa [HostReg.index, HostReg.width] using of_decide_eq_true hv
    | _ => cases hw
  · rintro (⟨rfl, hv⟩ | ⟨rfl, hv⟩ | ⟨rfl, hv⟩ | ⟨rfl | rfl, hv⟩ | ⟨hlo, hhi, hv⟩)
    · exact ⟨.cmd, rfl, rfl, decide_eq_true hv⟩
    · exact ⟨.len, rfl, rfl, decide_eq_true hv⟩
    · exact ⟨.cur, rfl, rfl, decide_eq_true hv⟩
    · exact ⟨.argFc, rfl, rfl, decide_eq_true hv⟩
    · exact ⟨.argU16, rfl, rfl, decide_eq_true hv⟩
    · obtain ⟨ra, rfl⟩ : ∃ ra, (HostReg.argAddr ra).index = n := by
        obtain rfl | rfl | rfl | rfl : n = 0x1A ∨ n = 0x1B ∨ n = 0x1C ∨ n = 0x1D := by omega
        · exact ⟨.addr1, rfl⟩
        · exact ⟨.addr2, rfl⟩
        · exact ⟨.addr3, rfl⟩
        · exact ⟨.addr4, rfl⟩
      exact ⟨.argAddr ra, rfl, rfl, decide_eq_true hv⟩

/-- The well-formed reads in the numbers of the table (10_state.md R27). -/
theorem wellFormed_read_iff_numbers {cap n : Nat} :
    (Input.read n).wellFormed cap = true ↔ (0x01 ≤ n ∧ n ≤ 0x10) ∨ (0x18 ≤ n ∧ n ≤ 0x1D) := by
  have hall : ∀ n < 0x1E, ((0x01 ≤ n ∧ n ≤ 0x10) ∨ (0x18 ≤ n ∧ n ≤ 0x1D)) →
      (hostRegAt n).any HostReg.readable = true := by decide
  rw [wellFormed_read_iff]
  constructor
  · rintro ⟨r, rfl, hr⟩
    cases r with
    | cmd => cases hr
    | addr ra => cases ra <;> decide
    | argAddr ra => cases ra <;> decide
    | _ => decide
  · intro hn
    obtain ⟨r, hr, hread⟩ := (Option.any_eq_true _ _).1 (hall n (by omega) hn)
    exact ⟨r, hostRegAt_eq_some_iff.1 hr, hread⟩

/-- Settles O53: a step serves the oldest input, and that is refused exactly when it has no meaning. -/
theorem illFormedAccessIsRefused : Obligations.IllFormedAccessIsRefused := by
  intro s x rest hin
  refine ⟨?_, ?_⟩
  · rw [step_of_inputs hin]
    exact serve_refused_iff x { s with inputs := rest }
  · cases x with
    | write n v => exact wellFormed_write_iff_numbers
    | read n => exact wellFormed_read_iff_numbers
    | writeBuf a b => exact decide_eq_true_iff
    | readBuf a => exact decide_eq_true_iff
    | reset => exact iff_of_true rfl trivial

end Sys2Proof.Machine
end

section
/-! Commands: which byte is which instruction, what each instruction leaves unchanged, what `STATUS` says of it, and where
it leaves the cursor. -/

namespace Sys2Proof.Machine

/-! The step that runs a command. -/

/-- The decoder reads an instruction back from its byte (30_encoding.md R60). -/
@[simp] theorem decode_encode (i : Instr) : decode (encode i) = .ok i := by
  cases i with
  | rdbits w => cases w <;> rfl
  | rdu16 rd => cases rd <;> rfl
  | rdaddr ra => cases ra <;> rfl
  | _ => rfl

/-- A byte that decodes is one of the eighteen legal ones (30_encoding.md R57, R59). -/
theorem mem_legalCommands_of_decode {b : Byte} {i : Instr} (h : decode b = .ok i) : b ∈ legalCommands := by
  have hall : ∀ b : Byte, (decode b).toOption.isSome = true → b ∈ legalCommands := by decide
  exact hall b (by rw [h]; rfl)

/-- A byte that decodes runs the instruction it stands for. -/
theorem runCommand_of_decode {b : Byte} {i : Instr} (h : decode b = .ok i) (s : State) :
    runCommand b s = exec i s := by
  unfold runCommand
  rw [h]

/-- A reserved byte is an illegal command (60_exceptions.md R107). -/
theorem runCommand_of_reserved {b : Byte} (h : b ∉ legalCommands) (s : State) :
    runCommand b s = .next (illegalCommand s) := by
  unfold runCommand
  split
  · exact absurd (mem_legalCommands_of_decode ‹_›) h
  · rfl

/-- A step whose oldest input is a command runs it. -/
theorem step_command {s : State} {b : Byte} {i : Instr} {rest : List Input} (hin : s.inputs = commandInput b :: rest)
    (hb : decode b = .ok i) : step s = exec i { s with inputs := rest } := by
  rw [step_of_inputs hin, serve_command, runCommand_of_decode hb]

/-- The byte of an instruction as an eight-bit word of the opcode table is that byte. -/
@[simp] theorem tableByte_encode (i : Instr) : tableByte 8 (encode i).toNat = encode i := by
  rw [tableByte, Nat.mod_eq_of_lt (encode i).isLt, BitVec.ofNat_toNat, BitVec.setWidth_eq]

/-- Settles O4: the oldest input is served, a command among inputs is run, and so is one that is placed. -/
theorem stepRunsDecodedCommand : Obligations.StepRunsDecodedCommand := by
  refine ⟨fun s x rest hin => step_of_inputs hin, fun s b rest i hin hb => step_command hin hb, fun s i => ?_⟩
  exact step_command (s := s.withFetchWord 8 (encode i).toNat) rfl (by rw [tableByte_encode, decode_encode])

/-! What failures leave unchanged. -/

/-- What clearing each of the destinations leaves unchanged, clearing all of them does. -/
theorem clearDests_unchanged {α : Type} {field : State → α} {ds : List Dest} (s : State)
    (h : ∀ d ∈ ds, ∀ u, field (clearDest u d) = field u) : field (clearDests ds s) = field s := by
  unfold clearDests
  induction ds generalizing s with
  | nil => rfl
  | cons d ds ih =>
    rw [List.foldl_cons, ih _ fun d' hd' => h d' (List.mem_cons_of_mem d hd'), h d List.mem_cons_self]

/-- A failure leaves `BITVAL` alone unless it is a destination. -/
@[simp] theorem raise_bitval {ds : List Dest} (f : Failure) (s : State) (h : .bitval ∉ ds) :
    (raise ds f s).bitval = s.bitval :=
  clearDests_unchanged (field := State.bitval) s fun d hd u => by
    cases d with
    | bitval => exact absurd hd h
    | _ => simp [clearDest]

/-- A failure leaves `PAY_OFF` alone unless it is a destination. -/
@[simp] theorem raise_payOff {ds : List Dest} (f : Failure) (s : State) (h : .payOff ∉ ds) :
    (raise ds f s).payOff = s.payOff :=
  clearDests_unchanged (field := State.payOff) s fun d hd u => by
    cases d with
    | payOff => exact absurd hd h
    | _ => simp [clearDest]

/-- A failure leaves `PAY_LEN` alone unless it is a destination. -/
@[simp] theorem raise_payLen {ds : List Dest} (f : Failure) (s : State) (h : .payLen ∉ ds) :
    (raise ds f s).payLen = s.payLen :=
  clearDests_unchanged (field := State.payLen) s fun d hd u => by
    cases d with
    | payLen => exact absurd hd h
    | _ => simp [clearDest]

/-- A failure leaves `FC` alone unless it is a destination. -/
@[simp] theorem raise_fc {ds : List Dest} (f : Failure) (s : State) (h : .fc ∉ ds) : (raise ds f s).fc = s.fc :=
  clearDests_unchanged (field := State.fc) s fun d hd u => by
    cases d with
    | fc => exact absurd hd h
    | _ => simp [clearDest]

/-- `PARSE` commits everything but `BITVAL`. -/
@[simp] theorem parsed_bitval (s : State) : (parsed s).bitval = s.bitval := rfl

/-- Settles O41: each instruction fails into its destinations and commits what it is named for. -/
theorem onlyTheNamedWriters : Obligations.OnlyTheNamedWriters := by
  intro i s t h
  cases i with
  | rdbits w => obtain ⟨-, rfl⟩ | ⟨-, -, rfl⟩ := execRdbits_next h <;> simp
  | rdfc => obtain ⟨f, -, rfl⟩ | ⟨-, -, -, rfl⟩ := execRdfc_next h <;> simp
  | rdu16 rd => obtain ⟨f, -, rfl⟩ | ⟨-, -, -, rfl⟩ := execRdu16_next h <;> simp
  | rdaddr ra => obtain ⟨f, -, rfl⟩ | ⟨-, -, -, rfl⟩ := execRdaddr_next h <;> simp
  | span => obtain ⟨f, -, rfl⟩ | ⟨-, -, rfl⟩ := execSpan_next h <;> simp
  | parse => obtain ⟨-, rfl⟩ | ⟨-, -, -, rfl⟩ := execParse_next h <;> simp [destinations]
  | setfc | setaddrs | setdur | setseq | setcrc => cases h; simp

/-! What `STATUS` and `ERR_OFF` say of an instruction. -/

/-- The report of a byte-granular read whose tests pass. -/
theorem fieldReport_of_fits {len cur n : Nat} {st : Stage} (ha : cur % 8 = 0) (hl : cur + 8 * n ≤ 8 * len) :
    fieldReport len cur n st = (Status.success, 0) := by
  simp only [fieldReport, ha, ne_eq, not_true_eq_false, if_false, Nat.not_lt.2 hl]

/-- The report of a byte-granular read with a test that fires is that failure. -/
theorem fieldReport_of_error {len cur n : Nat} {st : Stage} {f : Failure} (hn : 0 < n)
    (h : takeField len cur n st = .error f) :
    fieldReport len cur n st = (Status.failed f.cond.code f.stage, f.off) := by
  obtain ⟨ha, rfl⟩ | ⟨ha, hl, rfl⟩ := (takeField_error_iff hn).1 h
  · exact if_pos ha
  · simp only [fieldReport, ha, ne_eq, not_true_eq_false, if_false, hl, if_true, Condition.code]

/-- `RDU16` is reported at the stage of its register. -/
theorem commandReport_rdu16 (len cur : Nat) (rd : U16Reg) :
    commandReport len cur (.rdu16 rd) = fieldReport len cur 2 (u16Stage rd) := by
  cases rd <;> rfl

/-- `RDADDR` is reported at the stage of its register. -/
theorem commandReport_rdaddr (len cur : Nat) (ra : AddrReg) :
    commandReport len cur (.rdaddr ra) = fieldReport len cur 6 (addrStage ra) := by
  cases ra <;> rfl

/-- What an instruction leaves in `STATUS` and `ERR_OFF` is its report for `LEN` and `CUR` before it (60_exceptions.md
R111). -/
theorem exec_report {i : Instr} {s t : State} (h : exec i s = .next t) :
    (t.status, t.errOff) = commandReport s.len s.cur i := by
  cases i with
  | rdbits w =>
    obtain ⟨hl, rfl⟩ | ⟨hl, -, rfl⟩ := execRdbits_next h
    · exact (if_pos hl).symm
    · exact (if_neg (Nat.not_lt.2 hl)).symm
  | rdfc =>
    obtain ⟨f, hf, rfl⟩ | ⟨ha, hl, -, rfl⟩ := execRdfc_next h
    · exact (fieldReport_of_error (by decide) hf).symm
    · exact (fieldReport_of_fits ha hl).symm
  | rdu16 rd =>
    rw [commandReport_rdu16]
    obtain ⟨f, hf, rfl⟩ | ⟨ha, hl, -, rfl⟩ := execRdu16_next h
    · exact (fieldReport_of_error (by decide) hf).symm
    · exact (fieldReport_of_fits ha hl).symm
  | rdaddr ra =>
    rw [commandReport_rdaddr]
    obtain ⟨f, hf, rfl⟩ | ⟨ha, hl, -, rfl⟩ := execRdaddr_next h
    · exact (fieldReport_of_error (by decide) hf).symm
    · exact (fieldReport_of_fits ha hl).symm
  | span =>
    obtain ⟨f, hf, rfl⟩ | ⟨ha, hl, rfl⟩ := execSpan_next h
    · obtain ⟨ha, rfl⟩ | ⟨ha, hl, rfl⟩ := takeSpan_error_iff.1 hf
      · exact (if_pos ha).symm
      · exact ((if_neg (not_not_intro ha)).trans (if_pos hl)).symm
    · exact ((if_neg (not_not_intro ha)).trans (if_neg (Nat.not_lt.2 hl))).symm
  | parse =>
    obtain ⟨hl, rfl⟩ | ⟨hl, -, -, rfl⟩ := execParse_next h
    · exact (if_pos hl).symm
    · exact (if_neg (Nat.not_lt.2 hl)).symm
  | setfc | setaddrs | setdur | setseq | setcrc => cases h; rfl

/-- The two shapes of `STATUS` with `ERR_OFF` (60_exceptions.md R108): success at offset 0, or a failure that has a code
and a stage. -/
def IsReport (r : Status × Nat) : Prop :=
  r = (Status.success, 0) ∨
    ∃ code stage off, code ≠ .none ∧ stage ≠ .none ∧ r = (Status.failed code stage, off)

/-- Success at offset 0 is a report. -/
theorem isReport_success : IsReport (Status.success, 0) := .inl rfl

/-- A failure of an operation that has a stage is a report. -/
theorem isReport_failed (c : Condition) (st : Stage) (off : Nat) (hst : st ≠ .none) :
    IsReport (Status.failed c.code st, off) :=
  .inr ⟨c.code, st, off, c.code_ne_none, hst, rfl⟩

/-- A test that fires gives a report, and so does what follows if it does not. -/
theorem isReport_ite {p : Prop} [Decidable p] {fired passed : Status × Nat} (hf : IsReport fired)
    (hp : IsReport passed) : IsReport (if p then fired else passed) := by
  split
  · exact hf
  · exact hp

/-- The fields of a report agree with each other (10_state.md R25, R26). -/
theorem IsReport.fields_agree {st : Status} {off : Nat} (h : IsReport (st, off)) :
    st.done = true ∧ (st.err = true ↔ st.code ≠ .none) ∧ (st.code = .none ↔ st.stage = .none) ∧
      (st.err = false → off = 0) := by
  obtain h | ⟨code, stage, off', hcode, hstage, h⟩ := h <;> cases h
  · simp [Status.success]
  · simp [Status.failed, hcode, hstage]

theorem fieldReport_isReport (len cur n : Nat) {st : Stage} (hst : st ≠ .none) :
    IsReport (fieldReport len cur n st) :=
  isReport_ite (isReport_failed .misalignedCursor st cur hst)
    (isReport_ite (isReport_failed .insufficientData st cur hst) isReport_success)

theorem commandReport_isReport (len cur : Nat) (i : Instr) : IsReport (commandReport len cur i) := by
  cases i with
  | rdbits w => exact isReport_ite (isReport_failed .insufficientData .bits cur nofun) isReport_success
  | rdfc => exact fieldReport_isReport len cur 2 nofun
  | rdu16 rd => exact commandReport_rdu16 len cur rd ▸ fieldReport_isReport len cur 2 (u16Stage_ne_none rd)
  | rdaddr ra => exact commandReport_rdaddr len cur ra ▸ fieldReport_isReport len cur 6 (addrStage_ne_none ra)
  | span =>
    exact isReport_ite (isReport_failed .misalignedCursor .payload cur nofun)
      (isReport_ite (isReport_failed .truncatedFrame .payload cur nofun) isReport_success)
  | parse => exact isReport_ite (isReport_failed _ _ _ (parseFailure_stage_ne_none len)) isReport_success
  | setfc | setaddrs | setdur | setseq | setcrc => exact isReport_success

/-- Every command byte that answers a next state leaves a report. -/
theorem runCommand_isReport {b : Byte} {s t : State} (h : runCommand b s = .next t) :
    IsReport (t.status, t.errOff) := by
  unfold runCommand at h
  split at h
  · exact exec_report h ▸ commandReport_isReport ..
  · cases h
    exact isReport_failed .illegalCommand .cmd 0 nofun

/-- Settles O46: what a command leaves is a report, for an instruction the one that its tests give. -/
theorem statusDescribesLastCommand : Obligations.StatusDescribesLastCommand := by
  intro b s t h
  obtain ⟨hdone, herr, hcode, hoff⟩ := (runCommand_isReport h).fields_agree
  refine ⟨hdone, herr, hcode, hoff, fun hb => ?_, fun i hi => ?_⟩
  · rw [runCommand_of_reserved hb] at h
    cases h
    exact ⟨rfl, rfl⟩
  · rw [runCommand_of_decode hi] at h
    exact exec_report h

/-! Where an instruction leaves the cursor. -/

/-- Settles O48: a failure leaves the cursor, a success moves it past what was found below `LEN`. -/
theorem cursorMovesWithinFrame : Obligations.CursorMovesWithinFrame := by
  intro i s t h
  cases i with
  | rdbits w =>
    obtain ⟨-, rfl⟩ | ⟨hl, -, rfl⟩ := execRdbits_next h
    · exact .inl (raise_cur ..)
    · exact .inr ⟨hl, fun _ => Nat.lt_add_of_pos_right (widthBits_pos w), nofun⟩
  | rdfc =>
    obtain ⟨f, -, rfl⟩ | ⟨-, hl, -, rfl⟩ := execRdfc_next h
    · exact .inl (raise_cur ..)
    · exact .inr ⟨hl, fun _ => Nat.lt_add_of_pos_right (by decide), nofun⟩
  | rdu16 rd =>
    obtain ⟨f, -, rfl⟩ | ⟨-, hl, -, rfl⟩ := execRdu16_next h
    · exact .inl (raise_cur ..)
    · exact .inr ⟨hl, fun _ => Nat.lt_add_of_pos_right (by decide), nofun⟩
  | rdaddr ra =>
    obtain ⟨f, -, rfl⟩ | ⟨-, hl, -, rfl⟩ := execRdaddr_next h
    · exact .inl (raise_cur ..)
    · exact .inr ⟨hl, fun _ => Nat.lt_add_of_pos_right (by decide), nofun⟩
  | span =>
    obtain ⟨f, -, rfl⟩ | ⟨-, hl, rfl⟩ := execSpan_next h
    · exact .inl (raise_cur ..)
    · have hto : s.cur ≤ 8 * s.len - 16 := by omega
      rcases Nat.eq_or_lt_of_le hto with heq | hlt
      · exact .inl heq.symm
      · exact .inr ⟨Nat.sub_le .., fun _ => hlt, nofun⟩
  | parse =>
    obtain ⟨-, rfl⟩ | ⟨-, -, -, rfl⟩ := execParse_next h
    · exact .inl (raise_cur ..)
    · exact .inr ⟨Nat.le_refl _, fun hne => absurd rfl hne, fun _ => rfl⟩
  | setfc | setaddrs | setdur | setseq | setcrc => cases h; exact .inl rfl

end Sys2Proof.Machine
end

section
/-! The state after reset. -/

namespace Sys2Proof.Machine

/-- Settles O50: the reset values meet the invariant whatever the capacity. -/
theorem resetMeetsInvariant : Obligations.ResetMeetsInvariant :=
  ⟨resetFor_inv Config.cap, resetFor_inv⟩

/-- A reading operation whose tests cannot pass answers with a failure. -/
theorem finish_fails {α : Type} {ds : List Dest} {s : State} {tested : Except Failure α} {k : α → Except Fault State}
    (h : ∀ a, tested ≠ .ok a) : ∃ t, finish ds s tested k = .next t ∧ t.status.err = true := by
  cases tested with
  | error f => exact ⟨raise ds f s, rfl, rfl⟩
  | ok a => exact absurd rfl (h a)

/-- With `LEN = 0` no byte-granular field is found. -/
theorem takeField_zero_ne_ok {c n : Nat} (hn : 0 < n) (st : Stage) (x : Field) : takeField 0 c n st ≠ .ok x := by
  intro h
  obtain ⟨-, hl, -⟩ := (takeField_ok_iff hn).1 h
  omega

/-- With `LEN = 0` every reading command fails, wherever the cursor is (10_state.md R34). -/
theorem exec_fails_of_len_zero {i : Instr} {s : State} (hi : isReplace i = false) (hlen : s.len = 0) :
    ∃ t, exec i s = .next t ∧ t.status.err = true := by
  cases i with
  | rdbits w =>
    refine finish_fails fun a ha => ?_
    have hl := (testBits_ok_iff (widthBits_pos w)).1 ha
    have := widthBits_pos w
    omega
  | rdfc => exact finish_fails (hlen ▸ takeField_zero_ne_ok (by decide) _)
  | rdu16 rd => exact finish_fails (hlen ▸ takeField_zero_ne_ok (by decide) _)
  | rdaddr ra => exact finish_fails (hlen ▸ takeField_zero_ne_ok (by decide) _)
  | span =>
    show ∃ t, execSpan s = .next t ∧ t.status.err = true
    refine finish_fails fun a ha => ?_
    obtain ⟨-, hl, -⟩ := takeSpan_ok_iff.1 ha
    omega
  | parse =>
    refine finish_fails fun a ha => ?_
    rw [locateFrame_short (by omega)] at ha
    cases ha
  | setfc | setaddrs | setdur | setseq | setcrc => cases hi

/-- Settles O51: the values are those of the reset state's definition, and its `LEN` is 0. -/
theorem resetLeavesTableValues : Obligations.ResetLeavesTableValues := by
  refine ⟨fun _ => rfl, rfl, rfl, rfl, rfl, rfl, rfl, rfl, rfl, rfl, rfl, rfl, rfl, rfl, rfl, rfl, by decide, rfl, rfl,
    rfl, rfl, rfl, rfl, rfl, fun i hi => exec_fails_of_len_zero hi rfl, ?_⟩
  exact ⟨_, rfl, rfl, rfl⟩

end Sys2Proof.Machine
end

section
/-! Reads of the buffer by the engine: what a read of written bytes gives, that nothing else is written, and where a read
stops. -/

namespace Sys2Proof.Machine

/-! Reads of written bytes. -/

/-- `RDBITS` of bits in written bytes below `LEN` gives those bits. -/
theorem execRdbits_written {w : Width} {s : State} (hl : s.cur + widthBits w ≤ 8 * s.len)
    (hw : ∀ k, k < widthBits w → s.written ((s.cur + k) / 8) = true) :
    execRdbits w s = .next (succeed { s with
      bitval := some (BitVec.ofNat 4 (s.bitsAt s.cur (widthBits w))), cur := s.cur + widthBits w }) :=
  finish_next_iff.2 (.inr ⟨(), _, (testBits_ok_iff (widthBits_pos w)).2 hl,
    bind_ok_iff.2 ⟨_, readBits_written hl hw, rfl⟩, rfl⟩)

/-- `RDFC` at an aligned cursor with two written bytes left unpacks their word. -/
theorem execRdfc_written {s : State} (ha : s.cur % 8 = 0) (hl : s.cur + 16 ≤ 8 * s.len)
    (hw : s.writtenFrom (s.cur / 8) 2) :
    execRdfc s = .next (succeed { s with fc := some (fcOfWord (s.wordAt (s.cur / 8))), cur := s.cur + 16 }) :=
  finish_next_iff.2 (.inr ⟨_, _, takeField_ok .fc (by decide) ha hl,
    bind_ok_iff.2 ⟨_, readU16_written (by dsimp only; omega) hw, rfl⟩, rfl⟩)

/-- `RDU16` at an aligned cursor with two written bytes left gives their word. -/
theorem execRdu16_written {s : State} (rd : U16Reg) (ha : s.cur % 8 = 0) (hl : s.cur + 16 ≤ 8 * s.len)
    (hw : s.writtenFrom (s.cur / 8) 2) :
    execRdu16 rd s = .next (succeed { setU16 rd (some (s.wordAt (s.cur / 8))) s with cur := s.cur + 16 }) :=
  finish_next_iff.2 (.inr ⟨_, _, takeField_ok (u16Stage rd) (by decide) ha hl,
    bind_ok_iff.2 ⟨_, readU16_written (by dsimp only; omega) hw, rfl⟩, rfl⟩)

/-! Bit-field reads one after another. -/

/-- The values of bit fields of the given widths that lie one after another from bit `p`. -/
def State.fieldsAt (s : State) (p : Nat) : List Width → List (BitVec 4)
  | [] => []
  | w :: ws => BitVec.ofNat 4 (s.bitsAt p (widthBits w)) :: s.fieldsAt (p + widthBits w) ws

/-- Which bytes are written depends on the buffer alone. -/
theorem written_congr {s t : State} (hb : t.buf = s.buf) (a : Nat) : t.written a = s.written a := by
  unfold State.written
  rw [hb]

/-- The bits a buffer shows depend on the buffer alone. -/
theorem bitsAt_congr {s t : State} (hb : t.buf = s.buf) (p w : Nat) : t.bitsAt p w = s.bitsAt p w := by
  induction w with
  | zero => rfl
  | succ k ih => simp only [State.bitsAt, State.bitAt, State.byteAt, ih, hb]

/-- The fields a buffer shows depend on the buffer alone. -/
theorem fieldsAt_congr {s t : State} (hb : t.buf = s.buf) (p : Nat) (ws : List Width) :
    t.fieldsAt p ws = s.fieldsAt p ws := by
  induction ws generalizing p with
  | nil => rfl
  | cons w ws ih => simp only [State.fieldsAt, ih, bitsAt_congr hb]

/-- Bit-field reads one after another, of written bytes below `LEN`, give the fields one after another and move the cursor
past them (40_bitfield_reader.md R67). -/
theorem runBits_written {ws : List Width} {s : State} (hl : s.cur + (ws.map widthBits).sum ≤ 8 * s.len)
    (hw : ∀ k, k < (ws.map widthBits).sum → s.written ((s.cur + k) / 8) = true) :
    ∃ x, runBits ws s = some (s.fieldsAt s.cur ws, x) ∧ x.cur = s.cur + (ws.map widthBits).sum := by
  induction ws generalizing s with
  | nil => exact ⟨s, rfl, rfl⟩
  | cons w ws ih =>
    simp only [List.map_cons, List.sum_cons] at hl hw ⊢
    obtain ⟨t, hfirst, hval, hcur, hlen, hbuf⟩ : ∃ t, exec (.rdbits w) s = .next t ∧
        t.bitval = some (BitVec.ofNat 4 (s.bitsAt s.cur (widthBits w))) ∧ t.cur = s.cur + widthBits w ∧
        t.len = s.len ∧ t.buf = s.buf :=
      ⟨_, execRdbits_written (by omega) fun k hk => hw k (by omega), rfl, rfl, rfl, rfl⟩
    obtain ⟨x, hrest, hend⟩ := ih (s := t) (by omega) fun k hk => by
      rw [written_congr hbuf, hcur, Nat.add_assoc]
      exact hw (widthBits w + k) (by omega)
    rw [fieldsAt_congr hbuf, hcur] at hrest
    exact ⟨x, by simp only [runBits, hfirst, hval, hrest, State.fieldsAt], by omega⟩

/-- Fields of width 1 are the bits one by one. -/
theorem fieldsAt_replicate_w1 (s : State) (p n : Nat) :
    s.fieldsAt p (List.replicate n .w1) = (List.range n).map fun k => BitVec.ofNat 4 (s.bitAt (p + k)).toNat := by
  induction n generalizing p with
  | zero => rfl
  | succ n ih =>
    rw [List.replicate_succ, State.fieldsAt, ih, List.range_succ_eq_map]
    simp [widthBits, State.bitsAt, Nat.add_assoc, Nat.add_comm 1]

/-- The bits of the word at an aligned position stand in it from bit 15 down (20_memory.md R40). -/
theorem bitAt_eq_getLsbD_wordAt {s : State} {p k : Nat} (ha : p % 8 = 0) (hk : k < 16) :
    s.bitAt (p + k) = (s.wordAt (p / 8)).getLsbD (15 - k) := by
  unfold State.bitAt State.wordAt
  rw [BitVec.getLsbD_append]
  by_cases h : k < 8
  · rw [if_neg (by omega), show (p + k) / 8 = p / 8 by omega, show 7 - (p + k) % 8 = 15 - k - 8 by omega]
  · rw [if_pos (by omega), show (p + k) / 8 = p / 8 + 1 by omega, show 7 - (p + k) % 8 = 15 - k by omega]

/-- Settles O22: all three views are of the word that the two bytes make, the first byte and each byte's first bit the most
significant. -/
theorem mixedWidthViewsAgree : Obligations.MixedWidthViewsAgree := by
  intro rd s ha hl hw
  have hbytes (k : Nat) (hk : k < 16) : s.written ((s.cur + k) / 8) = true := by
    rw [show (s.cur + k) / 8 = s.cur / 8 + k / 8 by omega]
    exact hw (k / 8) (by omega)
  obtain ⟨x, hbits, -⟩ := runBits_written (ws := List.replicate 16 .w1) hl hbytes
  refine ⟨s.wordAt (s.cur / 8), _, _, x, rfl, execRdu16_written rd ha hl hw, ?_, execRdfc_written ha hl hw,
    congrArg some (wordOfFc_fcOfWord _), ?_⟩
  · cases rd <;> rfl
  · rw [hbits, fieldsAt_replicate_w1]
    congr 2
    exact List.map_congr_left fun k hk => by rw [bitAt_eq_getLsbD_wordAt ha (List.mem_range.1 hk)]

/-! What the engine never writes. -/

/-- Settles O40: neither the failure that an instruction raises nor the state that it commits touches an input. -/
theorem engineNeverWritesItsInputs : Obligations.EngineNeverWritesItsInputs := by
  intro i s t h
  cases i with
  | rdbits w => obtain ⟨-, rfl⟩ | ⟨-, -, rfl⟩ := execRdbits_next h <;> simp
  | rdfc => obtain ⟨f, -, rfl⟩ | ⟨-, -, -, rfl⟩ := execRdfc_next h <;> simp
  | rdu16 rd => obtain ⟨f, -, rfl⟩ | ⟨-, -, -, rfl⟩ := execRdu16_next h <;> simp
  | rdaddr ra => obtain ⟨f, -, rfl⟩ | ⟨-, -, -, rfl⟩ := execRdaddr_next h <;> simp
  | span => obtain ⟨f, -, rfl⟩ | ⟨-, -, rfl⟩ := execSpan_next h <;> simp
  | parse => obtain ⟨-, rfl⟩ | ⟨-, -, -, rfl⟩ := execParse_next h <;> simp [parsed]
  | setfc | setaddrs | setdur | setseq | setcrc => cases h; simp

/-! The engine's stop. -/

/-- A chain of reads stops where its first part stops, or where the rest does. -/
theorem bind_error_iff {ε α β : Type} {x : Except ε α} {f : α → Except ε β} {e : ε} :
    (x >>= f) = .error e ↔ x = .error e ∨ ∃ a, x = .ok a ∧ f a = .error e := by
  cases x <;> simp [bind, Except.bind]

/-- A read followed by a commit stops where the read does. -/
theorem bind_commit_error_iff {ε α β : Type} {x : Except ε α} {g : α → β} {e : ε} :
    (do let v ← x; .ok (g v)) = Except.error e ↔ x = .error e := by
  simp [bind_error_iff]

/-- The commit of a frame of 32 bytes or more stops only at a byte below `LEN` that holds `none`. -/
theorem commitFrame_error {s : State} {e : Fault} (hl : 32 ≤ s.len)
    (h : commitFrame s ⟨0, 2, 4, 10, 16, 22, 28, 30, s.len - 32, s.len - 2, 8 * s.len⟩ = .error e) :
    ∃ x, x < s.len ∧ s.written x = false ∧ e = .byteHoldsNone x := by
  simp only [commitFrame, bind_error_iff] at h
  obtain h | ⟨_, -, h | ⟨_, -, h | ⟨_, -, h | ⟨_, -, h | ⟨_, -, h | ⟨_, -, h | ⟨_, -, h | ⟨_, -, h⟩⟩⟩⟩⟩⟩⟩⟩ := h
  · exact readU16_error (by omega) h
  · exact readU16_error (by omega) h
  · exact readAddr_error (by omega) h
  · exact readAddr_error (by omega) h
  · exact readAddr_error (by omega) h
  · exact readAddr_error (by omega) h
  · exact readU16_error (by omega) h
  · exact readU16_error (by omega) h
  · cases h

/-- An instruction stops only at a byte below `LEN` that holds `none`: it reads after its tests have passed, and they put
all it reads below `LEN` (20_memory.md R36). -/
theorem exec_fault {i : Instr} {s : State} {e : Fault} (h : exec i s = .fault e) :
    ∃ x, x < s.len ∧ s.written x = false ∧ e = .byteHoldsNone x := by
  cases i with
  | rdbits w =>
    obtain ⟨_, htest, hread⟩ := finish_fault_iff.1 h
    exact readBits_error ((testBits_ok_iff (widthBits_pos w)).1 htest) (bind_commit_error_iff.1 hread)
  | rdfc =>
    obtain ⟨_, htest, hread⟩ := finish_fault_iff.1 h
    obtain ⟨-, hl, rfl⟩ := (takeField_ok_iff (n := 2) (by decide)).1 htest
    exact readU16_error (by dsimp only; omega) (bind_commit_error_iff.1 hread)
  | rdu16 rd =>
    obtain ⟨_, htest, hread⟩ := finish_fault_iff.1 h
    obtain ⟨-, hl, rfl⟩ := (takeField_ok_iff (n := 2) (by decide)).1 htest
    exact readU16_error (by dsimp only; omega) (bind_commit_error_iff.1 hread)
  | rdaddr ra =>
    obtain ⟨_, htest, hread⟩ := finish_fault_iff.1 h
    obtain ⟨-, hl, rfl⟩ := (takeField_ok_iff (n := 6) (by decide)).1 htest
    exact readAddr_error (by dsimp only; omega) (bind_commit_error_iff.1 hread)
  | span =>
    change execSpan s = .fault e at h
    obtain ⟨_, -, hread⟩ := finish_fault_iff.1 h
    cases hread
  | parse =>
    obtain ⟨_, htest, hread⟩ := finish_fault_iff.1 h
    rcases Nat.lt_or_ge s.len 32 with hl | hl
    · rw [locateFrame_short hl] at htest
      cases htest
    · rw [locateFrame_long hl] at htest
      cases htest
      exact commitFrame_error hl hread
  | setfc | setaddrs | setdur | setseq | setcrc => cases h

/-- Settles O42: where the reads of an instruction stop, and that none of its ends is a refusal. -/
theorem onlyUnwrittenFrameBytesStop : Obligations.OnlyUnwrittenFrameBytesStop :=
  fun i s => ⟨fun _ h => exec_fault h, exec_ne_refused i s⟩

/-- A read of the `n` bytes from `a`, which starts at or before the first unwritten byte `x`, either stops there or leaves
it to what follows. -/
theorem read_bind_stops {α β : Type} {s : State} {a n x : Nat} {r : Except Fault β} {v : β} {f : β → Except Fault α}
    (hstop : ∀ {k}, k < n → s.written (a + k) = false → s.writtenFrom a k → r = .error (.byteHoldsNone (a + k)))
    (hread : s.writtenFrom a n → r = .ok v) (hx : s.written x = false)
    (hb : ∀ b, a ≤ b → b < a + n → b < x → s.written b = true) (hax : a ≤ x)
    (hrest : a + n ≤ x → f v = .error (.byteHoldsNone x)) : (r >>= f) = .error (.byteHoldsNone x) := by
  obtain ⟨k, rfl⟩ := Nat.exists_eq_add_of_le hax
  by_cases hk : k < n
  · exact bind_error_iff.2 (.inl (hstop hk hx fun j hj => hb _ (by omega) (by omega) (by omega)))
  · exact bind_error_iff.2 (.inr ⟨v, hread fun j hj => hb _ (by omega) (by omega) (by omega), hrest (by omega)⟩)

theorem readU16_bind_stops {α : Type} {s : State} {a x : Nat} {f : Word → Except Fault α} (hl : a + 1 < s.len)
    (hx : s.written x = false) (hb : ∀ b, a ≤ b → b < a + 2 → b < x → s.written b = true) (hax : a ≤ x)
    (hrest : a + 2 ≤ x → f (s.wordAt a) = .error (.byteHoldsNone x)) :
    (readU16 s a >>= f) = .error (.byteHoldsNone x) :=
  read_bind_stops (fun hk => readU16_unwritten hk hl) (readU16_written hl) hx hb hax hrest

theorem readAddr_bind_stops {α : Type} {s : State} {a x : Nat} {f : Address → Except Fault α} (hl : a + 5 < s.len)
    (hx : s.written x = false) (hb : ∀ b, a ≤ b → b < a + 6 → b < x → s.written b = true) (hax : a ≤ x)
    (hrest : a + 6 ≤ x → f (s.addrAt a) = .error (.byteHoldsNone x)) :
    (readAddr s a >>= f) = .error (.byteHoldsNone x) :=
  read_bind_stops (fun hk => readAddr_unwritten hk hl) (readAddr_written hl) hx hb hax hrest

/-- The commit of a frame stops at the first header or trailer byte that nothing has written: the fields are read in the
order of their offsets. -/
theorem commitFrame_unwritten {s : State} {x : Nat} (hl : 32 ≤ s.len) (hin : x < 30 ∨ (s.len - 2 ≤ x ∧ x < s.len))
    (hx : s.written x = false) (hb : ∀ b, b < x → (b < 30 ∨ s.len - 2 ≤ b) → s.written b = true) :
    commitFrame s ⟨0, 2, 4, 10, 16, 22, 28, 30, s.len - 32, s.len - 2, 8 * s.len⟩ = .error (.byteHoldsNone x) := by
  have header {a n : Nat} (han : a + n ≤ 30) (b : Nat) (_ : a ≤ b) (hbn : b < a + n) (hbx : b < x) :
      s.written b = true := hb b hbx (.inl (by omega))
  dsimp only [commitFrame]
  refine readU16_bind_stops (by omega) hx (header (by omega)) (by omega) fun _ => ?_
  refine readU16_bind_stops (by omega) hx (header (by omega)) (by omega) fun _ => ?_
  refine readAddr_bind_stops (by omega) hx (header (by omega)) (by omega) fun _ => ?_
  refine readAddr_bind_stops (by omega) hx (header (by omega)) (by omega) fun _ => ?_
  refine readAddr_bind_stops (by omega) hx (header (by omega)) (by omega) fun _ => ?_
  refine readAddr_bind_stops (by omega) hx (header (by omega)) (by omega) fun _ => ?_
  refine readU16_bind_stops (by omega) hx (header (by omega)) (by omega) fun _ => ?_
  exact readU16_bind_stops (by omega) hx (fun b hab _ hbx => hb b hbx (.inr hab)) (by omega)
    fun _ => absurd hin (by omega)

/-- Settles O60: the tests pass, and the reads that follow go through the bytes in the order of their offsets. -/
theorem unwrittenByteStopsTheRead : Obligations.UnwrittenByteStopsTheRead := by
  refine ⟨fun w s k hl hk hx hb => ?_, fun s k ha hl hk hx hb => ⟨?_, fun rd => ?_⟩, fun s k ha hl hk hx hb ra => ?_,
    fun s a hl hin hx hb => ?_⟩
  · exact finish_fault_iff.2 ⟨(), (testBits_ok_iff (widthBits_pos w)).2 hl,
      bind_commit_error_iff.2 (readBits_unwritten hk hl hx hb)⟩
  · exact finish_fault_iff.2 ⟨_, takeField_ok .fc (by decide) ha hl,
      bind_commit_error_iff.2 (readU16_unwritten hk (by dsimp only; omega) hx hb)⟩
  · exact finish_fault_iff.2 ⟨_, takeField_ok (u16Stage rd) (by decide) ha hl,
      bind_commit_error_iff.2 (readU16_unwritten hk (by dsimp only; omega) hx hb)⟩
  · exact finish_fault_iff.2 ⟨_, takeField_ok (addrStage ra) (by decide) ha hl,
      bind_commit_error_iff.2 (readAddr_unwritten hk (by dsimp only; omega) hx hb)⟩
  · exact finish_fault_iff.2 ⟨_, locateFrame_long hl, commitFrame_unwritten hl hin hx hb⟩

end Sys2Proof.Machine
end

section
/-! The encoding: decode and encode are inverse, the two frame-control bytes slice by slice, and `PARSE` as the nine
commands of `parse.steps`. -/

namespace Sys2Proof.Machine

/-! Instructions and their bytes. -/

/-- Every legal byte is the byte of an instruction (30_encoding.md R57). -/
theorem exists_encode_of_mem_legalCommands {b : Byte} (h : b ∈ legalCommands) : ∃ i, encode i = b := by
  have hmap : legalCommands = [.rdbits .w1, .rdbits .w2, .rdbits .w4, .rdfc, .rdu16 .duration, .rdu16 .seqControl,
      .rdu16 .crc, .rdaddr .addr1, .rdaddr .addr2, .rdaddr .addr3, .rdaddr .addr4, .span, .parse, .setfc, .setaddrs,
      .setdur, .setseq, .setcrc].map encode := rfl
  obtain ⟨i, -, hi⟩ := List.mem_map.1 (hmap ▸ h)
  exact ⟨i, hi⟩

/-- Settles O2: a byte that decodes is legal, hence the byte of an instruction, and the decoder gives that one back. -/
theorem decodeInvertsEncode : Obligations.DecodeInvertsEncode := by
  intro b i
  constructor
  · intro h
    obtain ⟨j, rfl⟩ := exists_encode_of_mem_legalCommands (mem_legalCommands_of_decode h)
    rw [decode_encode] at h
    cases h
    rfl
  · rintro rfl
    exact decode_encode i

/-- Settles O1: each of the eighteen bytes is the byte of its instruction. -/
theorem specCommandBytesDecode : Obligations.SpecCommandBytesDecode := by
  have h {b : Byte} {i : Instr} (e : encode i = b) : decode b = .ok i := (decodeInvertsEncode b i).2 e
  exact ⟨h rfl, h rfl, h rfl, h rfl, h rfl, h rfl, h rfl, h rfl, h rfl, h rfl, h rfl, h rfl, h rfl, h rfl, h rfl, h rfl,
    h rfl, h rfl⟩

/-- Settles O3: the legal bytes are the bytes of instructions. -/
theorem legalBytesAreTheEighteen : Obligations.LegalBytesAreTheEighteen := by
  refine fun b => ⟨fun ⟨_, h⟩ => mem_legalCommands_of_decode h, fun h => ?_⟩
  obtain ⟨i, rfl⟩ := exists_encode_of_mem_legalCommands h
  exact ⟨i, decode_encode i⟩

/-! The frame-control bytes. -/

/-- Three fields of `FC` are slices of the first byte and eight of the second (30_encoding.md R50, R51). -/
theorem fcOfWord_append (b0 b1 : Byte) :
    fcOfWord (b0 ++ b1) =
      { version := b0.extractLsb' 6 2
        ftype := b0.extractLsb' 4 2
        subtype := b0.extractLsb' 0 4
        toDs := b1.extractLsb' 7 1
        fromDs := b1.extractLsb' 6 1
        moreFragments := b1.extractLsb' 5 1
        retry := b1.extractLsb' 4 1
        powerMgmt := b1.extractLsb' 3 1
        moreData := b1.extractLsb' 2 1
        wep := b1.extractLsb' 1 1
        order := b1.extractLsb' 0 1 } := by
  have hi (k n : Nat) : (b0 ++ b1).extractLsb' (k + 8) n = b0.extractLsb' k n := by
    rw [BitVec.extractLsb'_append_eq_of_le (by omega), Nat.add_sub_cancel]
  have lo (k n : Nat) (h : k + n ≤ 8) : (b0 ++ b1).extractLsb' k n = b1.extractLsb' k n :=
    BitVec.extractLsb'_append_eq_of_add_le h
  simp only [fcOfWord, hi 6, hi 4, hi 0, lo 7 1, lo 6 1, lo 5 1, lo 4 1, lo 3 1, lo 2 1, lo 1 1, lo 0 1,
    Nat.reduceLeDiff]

/-- Settles O12: `RDFC` unpacks the word of the two bytes. -/
theorem rdfcDecodesElevenFields : Obligations.RdfcDecodesElevenFields := by
  intro s ha hl hw
  rw [← fcOfWord_append]
  exact execRdfc_written ha hl hw

/-! `PARSE` as the nine commands of `parse.steps`. -/

/-- What a reading operation whose tests have passed answers, by what its reads and its commit give. -/
def committed : Except Fault State → Host.Outcome State Fault Refusal
  | .error e => .fault e
  | .ok t => .next (succeed t)

/-- A reading operation whose tests pass answers what its commit gives. -/
theorem finish_of_ok {α : Type} {ds : List Dest} {s : State} {t : Except Failure α} {a : α} {k : α → Except Fault State}
    (h : t = .ok a) : finish ds s t k = committed (k a) := by
  subst h
  cases hk : k a <;> simp only [finish, committed, hk]

/-- A sequence goes on from the next state of its first instruction. -/
theorem runAll_cons_of_next {i : Instr} {is : List Instr} {u t : State} (h : exec i u = .next t) :
    runAll (i :: is) u = runAll is t := by
  simp only [runAll, h]

/-- A sequence whose first instruction makes the read `r` answers what `r` and then `f` give, if its rest answers what `f`
gives after `r`. -/
theorem runAll_cons_of_read {α : Type} {i : Instr} {is : List Instr} {u : State} {r : Except Fault α} {g : α → State}
    {f : α → Except Fault State} (hi : exec i u = committed (do let v ← r; .ok (g v)))
    (hrest : ∀ v, runAll is (succeed (g v)) = committed (f v)) : runAll (i :: is) u = committed (r >>= f) := by
  cases r with
  | error e => simp only [runAll, hi]; rfl
  | ok v => exact (runAll_cons_of_next hi).trans (hrest v)

/-- What a command that commits `u` and moves the cursor to byte `a` leaves. -/
def State.succeedAt (u : State) (a : Nat) : State := succeed { u with cur := 8 * a }

/-- A state `u` shows the frame of `s`, and its cursor stands at byte `a`. -/
structure State.StandsAt (u s : State) (a : Nat) : Prop where
  buf : u.buf = s.buf
  len : u.len = s.len
  cur : u.cur = 8 * a

section
variable {u s : State} {a : Nat} (h : u.StandsAt s a)
include h

/-- The tests of a byte-granular read pass at a byte with enough bytes of the frame after it. -/
theorem State.StandsAt.takeField {n : Nat} (hn : 0 < n) (hl : a + n ≤ s.len) (st : Stage) :
    takeField u.len u.cur n st = .ok ⟨a, 8 * (a + n)⟩ := by
  rw [takeField_ok_iff hn, h.len, h.cur]
  refine ⟨by omega, by omega, ?_⟩
  congr 1 <;> omega

/-- The tests of the span step pass at a byte with the trailer after it. -/
theorem State.StandsAt.takeSpan (hl : a + 2 ≤ s.len) :
    takeSpan u.len u.cur = .ok ⟨a, s.len - (a + 2), 8 * (s.len - 2)⟩ := by
  rw [takeSpan_ok_iff, h.len, h.cur]
  refine ⟨by omega, by omega, ?_⟩
  congr 1 <;> omega

/-- A 16-bit read depends on the frame alone. -/
theorem State.StandsAt.readU16 (x : Nat) : readU16 u x = readU16 s x :=
  readU16_congr (memRead_congr h.len h.buf _) (memRead_congr h.len h.buf _)

/-- An address read depends on the frame alone. -/
theorem State.StandsAt.readAddr (x : Nat) : readAddr u x = readAddr s x :=
  readAddr_congr fun _ _ => memRead_congr h.len h.buf _

/-- A command that leaves the buffer and `LEN` as they are leaves a state that shows the same frame. -/
theorem State.StandsAt.move {w : State} {b : Nat} (hbuf : w.buf = u.buf) (hlen : w.len = u.len) :
    (w.succeedAt b).StandsAt s b :=
  ⟨hbuf.trans h.buf, hlen.trans h.len, rfl⟩

/-- `RDFC` first, where two bytes of the frame are left. -/
theorem runAll_rdfc_cons {is : List Instr} {f : Word → Except Fault State} (hl : a + 2 ≤ s.len)
    (hrest : ∀ w, (State.succeedAt { u with fc := some (fcOfWord w) } (a + 2)).StandsAt s (a + 2) →
      runAll is (State.succeedAt { u with fc := some (fcOfWord w) } (a + 2)) = committed (f w)) :
    runAll (.rdfc :: is) u = committed (readU16 s a >>= f) := by
  rw [← h.readU16]
  exact runAll_cons_of_read (finish_of_ok (h.takeField (by decide) hl .fc)) fun w => hrest w (h.move rfl rfl)

/-- `RDU16` first, where two bytes of the frame are left. -/
theorem runAll_rdu16_cons {rd : U16Reg} {is : List Instr} {f : Word → Except Fault State} (hl : a + 2 ≤ s.len)
    (hrest : ∀ v, ((setU16 rd (some v) u).succeedAt (a + 2)).StandsAt s (a + 2) →
      runAll is ((setU16 rd (some v) u).succeedAt (a + 2)) = committed (f v)) :
    runAll (.rdu16 rd :: is) u = committed (readU16 s a >>= f) := by
  rw [← h.readU16]
  exact runAll_cons_of_read (finish_of_ok (h.takeField (by decide) hl (u16Stage rd)))
    fun v => hrest v (h.move (setU16_buf ..) (setU16_len ..))

/-- `RDADDR` first, where six bytes of the frame are left. -/
theorem runAll_rdaddr_cons {ra : AddrReg} {is : List Instr} {f : Address → Except Fault State} (hl : a + 6 ≤ s.len)
    (hrest : ∀ x, ((setAddr ra (some x) u).succeedAt (a + 6)).StandsAt s (a + 6) →
      runAll is ((setAddr ra (some x) u).succeedAt (a + 6)) = committed (f x)) :
    runAll (.rdaddr ra :: is) u = committed (readAddr s a >>= f) := by
  rw [← h.readAddr]
  exact runAll_cons_of_read (finish_of_ok (h.takeField (by decide) hl (addrStage ra)))
    fun x => hrest x (h.move (setAddr_buf ..) (setAddr_len ..))

/-- `SPAN` first, where the trailer of the frame is left: it reads nothing. -/
theorem runAll_span_cons {is : List Instr} {x : Host.Outcome State Fault Refusal} (hl : a + 2 ≤ s.len)
    (hrest :
      (State.succeedAt { u with payOff := some a, payLen := some (s.len - (a + 2)) } (s.len - 2)).StandsAt s (s.len - 2) →
      runAll is (State.succeedAt { u with payOff := some a, payLen := some (s.len - (a + 2)) } (s.len - 2)) = x) :
    runAll (.span :: is) u = x := by
  refine (runAll_cons_of_next ?_).trans (hrest (h.move rfl rfl))
  rw [exec, execSpan, finish_of_ok (h.takeSpan hl)]
  rfl

end

/-- Settles O30: the tests pass in both, and the commands make the reads of `PARSE` in its order, each from where the one
before left the cursor, and stop where it stops. -/
theorem parseIsItsNineSteps : Obligations.ParseIsItsNineSteps := by
  intro s hl
  have h0 : State.StandsAt { s with cur := 0 } s 0 := ⟨rfl, rfl, rfl⟩
  refine Eq.trans ?_ (finish_of_ok (locateFrame_long hl)).symm
  refine runAll_rdfc_cons h0 (by omega) fun fc h2 => ?_
  refine runAll_rdu16_cons h2 (by omega) fun du h4 => ?_
  refine runAll_rdaddr_cons h4 (by omega) fun a1 h10 => ?_
  refine runAll_rdaddr_cons h10 (by omega) fun a2 h16 => ?_
  refine runAll_rdaddr_cons h16 (by omega) fun a3 h22 => ?_
  refine runAll_rdaddr_cons h22 (by omega) fun a4 h28 => ?_
  refine runAll_rdu16_cons h28 (by omega) fun sq h30 => ?_
  refine runAll_span_cons h30 (by omega) fun htrailer => ?_
  refine runAll_rdu16_cons htrailer (by omega) fun cr _ => ?_
  have hcur : 8 * (s.len - 2 + 2) = 8 * s.len := by omega
  simp only [runAll, committed, State.succeedAt, setU16, setAddr, succeed, hcur]

end Sys2Proof.Machine
end

section
/-! The bit-field reader: what `RDBITS` takes from the stream, when it fails, and how reads one after another add up. -/

namespace Sys2Proof.Machine

/-! The value of a bit field. -/

/-- `BITVAL` has room for the bits of every width (40_bitfield_reader.md R69). -/
theorem toNat_ofNat_bitsAt (s : State) (p : Nat) (w : Width) :
    (BitVec.ofNat 4 (s.bitsAt p (widthBits w))).toNat = s.bitsAt p (widthBits w) := by
  have hroom : s.bitsAt p (widthBits w) < 2 ^ 4 :=
    Nat.lt_of_lt_of_le (bitsAt_lt ..) (Nat.pow_le_pow_right (by decide) (widthBits_le w))
  rw [BitVec.toNat_ofNat, Nat.mod_eq_of_lt hroom]

/-- A bit of the stream is a binary digit of its byte, the first the most significant (00_scope.md R12). -/
theorem bitAt_toNat (s : State) (p : Nat) :
    (s.bitAt p).toNat = (s.byteAt (p / 8)).toNat / 2 ^ (7 - p % 8) % 2 := by
  rw [State.bitAt, BitVec.getLsbD, Nat.toNat_testBit]

/-- Bits that lie in one byte are a slice of that byte (40_bitfield_reader.md R66). -/
theorem bitsAt_eq_slice {s : State} {p w : Nat} (h : p % 8 + w ≤ 8) :
    s.bitsAt p w = (s.byteAt (p / 8)).toNat / 2 ^ (8 - p % 8 - w) % 2 ^ w := by
  induction w with
  | zero => rw [Nat.pow_zero, Nat.mod_one, State.bitsAt]
  | succ k ih =>
    have hbyte : (p + k) / 8 = p / 8 := by omega
    have hplace : 7 - (p + k) % 8 = 8 - p % 8 - (k + 1) := by omega
    have habove : 8 - p % 8 - k = 8 - p % 8 - (k + 1) + 1 := by omega
    rw [State.bitsAt, ih (by omega), bitAt_toNat, hbyte, hplace, habove, Nat.pow_succ, ← Nat.div_div_eq_div_mul,
      Nat.pow_succ', Nat.mod_mul, Nat.add_comm]

/-- Settles O7: the read commits the stream bits, and those within a byte are a slice of it. -/
theorem rdbitsReadsMostSignificantFirst : Obligations.RdbitsReadsMostSignificantFirst := by
  intro w s hl hw
  refine ⟨_, execRdbits_written hl hw, ?_, fun hin => ?_⟩
  · rw [toNat_ofNat_bitsAt]
    cases w <;> simp only [widthBits, State.bitsAt, Nat.add_zero] <;> omega
  · rw [toNat_ofNat_bitsAt, bitsAt_eq_slice hin]

/-- Settles O9: a failure leaves no value, and a success leaves the number of `w` bits. -/
theorem rdbitsValueBelowWidth : Obligations.RdbitsValueBelowWidth := by
  intro w s t v h hv
  obtain ⟨-, rfl⟩ | ⟨-, -, rfl⟩ := execRdbits_next h
  · cases hv
  · cases hv
    rw [toNat_ofNat_bitsAt]
    exact bitsAt_lt ..

/-! Failure and frame. -/

/-- `RDBITS` with fewer bits left than it asks for fails at its cursor (40_bitfield_reader.md R70). -/
theorem execRdbits_short {w : Width} {s : State} (hl : 8 * s.len < s.cur + widthBits w) :
    execRdbits w s = .next (raise (destinations (.rdbits w)) ⟨.insufficientData, .bits, s.cur⟩ s) :=
  finish_next_iff.2 (.inl ⟨_, (testBits_error_iff (widthBits_pos w)).2 ⟨hl, rfl⟩, rfl⟩)

/-- Fewer bits are left than a positive number exactly when that many would end beyond the frame (00_scope.md R12). -/
theorem availBits_lt_iff {len c n : Nat} (hn : 0 < n) : availBits len c < n ↔ 8 * len < c + n := by
  unfold availBits
  split <;> omega

/-- Settles O8: too few bits left, none left among them, fail; exactly `w` left are read to the end. -/
theorem rdbitsFailsWithoutData : Obligations.RdbitsFailsWithoutData := by
  refine ⟨fun w s hl => ?_, fun w s hl => ?_, fun w s hl hw => ?_⟩
  · exact execRdbits_short ((availBits_lt_iff (widthBits_pos w)).1 hl)
  · exact execRdbits_short (Nat.lt_of_le_of_lt hl (Nat.lt_add_of_pos_right (widthBits_pos w)))
  · exact ⟨_, execRdbits_written (Nat.le_of_eq hl) hw, rfl, hl⟩

/-- Settles O11: the failure clears `BITVAL`, the success writes it and `CUR`, and both report in `STATUS` and `ERR_OFF`. -/
theorem rdbitsFrame : Obligations.RdbitsFrame := by
  intro w s t h
  obtain ⟨-, rfl⟩ | ⟨-, -, rfl⟩ := execRdbits_next h
  · exact ⟨rfl, fun _ => rfl⟩
  · exact ⟨rfl, fun _ => rfl⟩

/-! Reads one after another. -/

/-- What a successful `RDBITS` found and left (40_bitfield_reader.md R66). -/
theorem execRdbits_success {w : Width} {s t : State} (h : execRdbits w s = .next t) (hok : t.status.err = false) :
    s.cur + widthBits w ≤ 8 * s.len ∧ (∀ k, k < widthBits w → s.written ((s.cur + k) / 8) = true) ∧
      t.bitval = some (BitVec.ofNat 4 (s.bitsAt s.cur (widthBits w))) ∧ t.cur = s.cur + widthBits w ∧
      t.len = s.len ∧ t.buf = s.buf := by
  obtain ⟨-, rfl⟩ | ⟨hl, hw, rfl⟩ := execRdbits_next h
  · cases hok
  · exact ⟨hl, hw, rfl, rfl, rfl, rfl⟩

/-- `RDBITS` leaves a value in `BITVAL` only when it succeeds (40_bitfield_reader.md R70). -/
theorem execRdbits_success_of_bitval {w : Width} {s t : State} {v : BitVec 4} (h : execRdbits w s = .next t)
    (hv : t.bitval = some v) : t.status.err = false := by
  obtain ⟨-, rfl⟩ | ⟨-, -, rfl⟩ := execRdbits_next h
  · cases hv
  · rfl

/-- Bit-field reads one after another that all succeed: the first does, and the others do after it. -/
theorem runBits_cons_some {w : Width} {ws : List Width} {s u : State} {vs : List (BitVec 4)}
    (h : runBits (w :: ws) s = some (vs, u)) :
    ∃ t v rest, exec (.rdbits w) s = .next t ∧ t.bitval = some v ∧ runBits ws t = some (rest, u) ∧ vs = v :: rest := by
  simp only [runBits] at h
  split at h
  · rename_i t hfirst
    split at h
    · rename_i v rest _ hval hrest
      cases h
      exact ⟨t, v, rest, hfirst, hval, hrest, rfl⟩
    · cases h
  · cases h

/-- Bit-field reads one after another that all succeed found every bit below `LEN` in a written byte, and gave the fields one
after another (40_bitfield_reader.md R67). -/
theorem runBits_some {ws : List Width} {s u : State} {vs : List (BitVec 4)} (h : runBits ws s = some (vs, u)) :
    vs = s.fieldsAt s.cur ws ∧ u.cur = s.cur + (ws.map widthBits).sum ∧
      ∀ k, k < (ws.map widthBits).sum → s.cur + k < 8 * s.len ∧ s.written ((s.cur + k) / 8) = true := by
  induction ws generalizing s vs with
  | nil =>
    cases h
    exact ⟨rfl, rfl, nofun⟩
  | cons w ws ih =>
    obtain ⟨t, v, rest, hfirst, hval, hrest, rfl⟩ := runBits_cons_some h
    obtain ⟨hl, hw, hfield, hcur, hlen, hbuf⟩ :=
      execRdbits_success hfirst (execRdbits_success_of_bitval hfirst hval)
    obtain ⟨rfl, hend, hbits⟩ := ih hrest
    obtain rfl : v = _ := Option.some.inj (hval.symm.trans hfield)
    simp only [hcur, hlen, written_congr hbuf, Nat.add_assoc] at hend hbits
    refine ⟨by rw [fieldsAt_congr hbuf, hcur, State.fieldsAt], hend, fun k hk => ?_⟩
    by_cases hkw : k < widthBits w
    · exact ⟨by omega, hw k hkw⟩
    · obtain ⟨j, rfl⟩ := Nat.exists_eq_add_of_le (Nat.le_of_not_lt hkw)
      exact hbits j (Nat.lt_of_add_lt_add_left hk)

/-- Where reads one after another succeed, they give the fields one after another, and one read of all their bits succeeds
too, from the same cursor to the same end. -/
theorem execRdbits_of_runBits {w : Width} {ws : List Width} {s u : State} {vs : List (BitVec 4)}
    (hsum : (ws.map widthBits).sum = widthBits w) (h : runBits ws s = some (vs, u)) :
    vs = s.fieldsAt s.cur ws ∧
      ∃ t v, execRdbits w s = .next t ∧ t.bitval = some v ∧ v.toNat = s.bitsAt s.cur (widthBits w) ∧ t.cur = u.cur := by
  obtain ⟨hfields, hend, hbits⟩ := runBits_some h
  rw [hsum] at hend hbits
  have hl : s.cur + widthBits w ≤ 8 * s.len := by
    have hpos := widthBits_pos w
    obtain ⟨hlast, -⟩ := hbits (widthBits w - 1) (by omega)
    omega
  have hw : ∀ k, k < widthBits w → s.written ((s.cur + k) / 8) = true := fun k hk => (hbits k hk).2
  exact ⟨hfields, _, _, execRdbits_written hl hw, rfl, toNat_ofNat_bitsAt .., hend.symm⟩

/-- Settles O10: each read takes the bits at its own cursor, and the fields read side by side make up the wider one. -/
theorem rdbitsReadsCompose : Obligations.RdbitsReadsCompose := by
  refine ⟨fun w₁ w₂ s t u h₁ ok₁ h₂ ok₂ => ?_, fun s u hi lo h => ?_, fun s u a b c d h => ?_⟩
  · obtain ⟨-, -, hval₁, hcur₁, -, hbuf⟩ := execRdbits_success h₁ ok₁
    obtain ⟨-, -, hval₂, hcur₂, -, -⟩ := execRdbits_success h₂ ok₂
    rw [bitsAt_congr hbuf, hcur₁] at hval₂
    exact ⟨hval₁, hval₂, hcur₂.trans (congrArg (· + _) hcur₁)⟩
  · obtain ⟨hfields, t, v, hexec, hbitval, hv, hcur⟩ := execRdbits_of_runBits (w := .w4) rfl h
    cases hfields
    refine ⟨t, v, hexec, hbitval, ?_, hcur⟩
    simp only [hv, toNat_ofNat_bitsAt]
    exact (bitsAt_add s s.cur 2 2).trans (congrArg (· + _) (Nat.mul_comm ..))
  · obtain ⟨hfields, t, v, hexec, hbitval, hv, hcur⟩ := execRdbits_of_runBits (w := .w4) rfl h
    cases hfields
    refine ⟨t, v, hexec, hbitval, ?_, hcur⟩
    simp only [hv, toNat_ofNat_bitsAt]
    simp only [widthBits, State.bitsAt, Nat.add_assoc, Nat.reduceAdd]
    omega

end Sys2Proof.Machine
end

section
/-! The frame-control decoder: how `RDFC` fails without data, `RDFC` as eleven bit-field reads, and the frame of the
byte-granular readers. -/

namespace Sys2Proof.Machine

/-! Failure. -/

/-- Fewer whole bytes are left than a positive number exactly when that many would end beyond the frame (00_scope.md R12). -/
theorem availBytes_lt_iff {len c n : Nat} (hn : 0 < n) : availBytes len c < n ↔ 8 * len < c + 8 * n := by
  rw [availBytes, Nat.div_lt_iff_lt_mul (by decide), Nat.mul_comm n 8, availBits_lt_iff (by omega)]

/-- `RDFC` at an aligned cursor with fewer than two bytes left fails where it stands (41_frame_control.md R74). -/
theorem execRdfc_short {s : State} (ha : s.cur % 8 = 0) (hl : 8 * s.len < s.cur + 16) :
    execRdfc s = .next (raise (destinations .rdfc) ⟨.insufficientData, .fc, s.cur⟩ s) :=
  finish_next_iff.2 (.inl ⟨_, takeField_short .fc (by decide) ha hl, rfl⟩)

/-- Settles O13: the test for two bytes is raised, with the cursor as its offset. -/
theorem rdfcFailsWithoutData : Obligations.RdfcFailsWithoutData := fun _ ha hl =>
  execRdfc_short ha ((availBytes_lt_iff (by decide)).1 hl)

/-! `RDFC` as bit-field reads. -/

/-- The widths of the fields of `FC` in the order of the stream (41_frame_control.md R72). -/
def fcWidths : List Width := [.w2, .w2, .w4, .w1, .w1, .w1, .w1, .w1, .w1, .w1, .w1]

/-- The fields of `FC` in the order of the stream, each as `BITVAL` holds it: zero-extended (40_bitfield_reader.md R65). -/
def FrameControl.bitvals (f : FrameControl) : List (BitVec 4) :=
  [f.version.setWidth 4, f.ftype.setWidth 4, f.subtype, f.toDs.setWidth 4, f.fromDs.setWidth 4,
    f.moreFragments.setWidth 4, f.retry.setWidth 4, f.powerMgmt.setWidth 4, f.moreData.setWidth 4,
    f.wep.setWidth 4, f.order.setWidth 4]

/-- The `w` bits of the stream from bit `k` of byte `a` on, within that byte and as `BITVAL` holds them, are a slice of the
byte (40_bitfield_reader.md R66). -/
theorem ofNat_bitsAt_in_byte (s : State) (a : Nat) {k w : Nat} (hk : k < 8) (hw : k + w ≤ 8) :
    BitVec.ofNat 4 (s.bitsAt (8 * a + k) w) = ((s.byteAt a).extractLsb' (8 - k - w) w).setWidth 4 := by
  have hbyte : (8 * a + k) / 8 = a := by omega
  have hbit : (8 * a + k) % 8 = k := by omega
  apply BitVec.eq_of_toNat_eq
  rw [bitsAt_eq_slice (by omega), hbyte, hbit, BitVec.toNat_ofNat, BitVec.toNat_setWidth, BitVec.extractLsb'_toNat,
    Nat.shiftRight_eq_div_pow]

/-- The bit fields of `RDFC`'s widths at a byte boundary are the fields it unpacks: three of the first byte, eight of the
second. -/
theorem fieldsAt_fcWidths (s : State) (a : Nat) :
    s.fieldsAt (8 * a) fcWidths = (fcOfWord (s.wordAt a)).bitvals := by
  have first (k w : Nat) (hk : k < 8) (hw : k + w ≤ 8) := ofNat_bitsAt_in_byte s a hk hw
  have second (k : Nat) (hk : k < 8) := ofNat_bitsAt_in_byte (w := 1) s (a + 1) hk hk
  simp only [fcWidths, State.fieldsAt, widthBits, State.wordAt, fcOfWord_append, FrameControl.bitvals, List.cons.injEq,
    and_true]
  refine ⟨first 0 2 ?_ ?_, first 2 2 ?_ ?_, (first 4 4 ?_ ?_).trans (BitVec.setWidth_eq _), second 0 ?_, second 1 ?_,
    second 2 ?_, second 3 ?_, second 4 ?_, second 5 ?_, second 6 ?_, second 7 ?_⟩
  all_goals decide

/-- Bytes written from an aligned cursor on hold every bit that stands in them. -/
theorem State.writtenFrom.bits {s : State} {c n : Nat} (ha : c % 8 = 0) (hw : s.writtenFrom (c / 8) n) :
    ∀ k, k < 8 * n → s.written ((c + k) / 8) = true := by
  intro k hk
  rw [show (c + k) / 8 = c / 8 + k / 8 by omega]
  exact hw (k / 8) (by omega)

/-- `RDBITS` within a written frame of one byte succeeds and leaves such a frame. -/
theorem exec_rdbits_one_byte (w : Width) {s : State} {c : Nat} (hlen : s.len = 1) (hw : s.written 0 = true)
    (hcur : s.cur = c) (hl : c + widthBits w ≤ 8) :
    ∃ t, exec (.rdbits w) s = .next t ∧ t.len = 1 ∧ t.written 0 = true ∧ t.cur = c + widthBits w ∧
      t.status = Status.success := by
  subst hcur
  refine ⟨_, execRdbits_written (by omega) fun k hk => ?_, hlen, hw, rfl, rfl⟩
  rwa [show (s.cur + k) / 8 = 0 by omega]

/-- Settles O14: the reads take the eleven fields of the word that `RDFC` unpacks; on one byte three of them succeed and the
fourth fails at bit 8, while `RDFC` fails where it starts. -/
theorem rdfcIsElevenBitReads : Obligations.RdfcIsElevenBitReads := by
  refine ⟨fun s ha hl hw => ?_, fun s hlen hcur hw => ⟨?_, ?_⟩⟩
  · obtain ⟨u, hbits, hend⟩ := runBits_written (ws := fcWidths) hl (hw.bits ha)
    rw [← Nat.mul_div_cancel' (Nat.dvd_of_mod_eq_zero ha), fieldsAt_fcWidths] at hbits
    exact ⟨_, _, u, execRdfc_written ha hl hw, rfl, hbits, rfl, hend⟩
  · obtain ⟨t₁, h₁, hlen₁, hw₁, hcur₁, -⟩ := exec_rdbits_one_byte .w2 hlen hw hcur (by decide)
    obtain ⟨t₂, h₂, hlen₂, hw₂, hcur₂, -⟩ := exec_rdbits_one_byte .w2 hlen₁ hw₁ hcur₁ (by decide)
    obtain ⟨t, h₃, hlen₃, -, hend, hok⟩ := exec_rdbits_one_byte .w4 hlen₂ hw₂ hcur₂ (by decide)
    have hrun : runAll [.rdbits .w2, .rdbits .w2, .rdbits .w4] s = .next t :=
      (runAll_cons_of_next h₁).trans <| (runAll_cons_of_next h₂).trans (runAll_cons_of_next h₃)
    have hfail := execRdbits_short (w := .w1) (s := t) (by rw [hlen₃, hend]; decide)
    rw [hend] at hfail
    exact ⟨t, hrun, hok, hfail⟩
  · have hfail := execRdfc_short (s := s) (by rw [hcur]) (by rw [hlen, hcur]; decide)
    rwa [hcur] at hfail

/-! The frame of the byte-granular readers. -/

/-- `RDFC` writes `FC`, `CUR`, `STATUS` and `ERR_OFF` (41_frame_control.md R71). -/
theorem execRdfc_frame {s t : State} (h : execRdfc s = .next t) :
    t = { s with fc := t.fc, cur := t.cur, status := t.status, errOff := t.errOff } := by
  obtain ⟨f, -, rfl⟩ | ⟨-, -, -, rfl⟩ := execRdfc_next h <;> rfl

/-- `RDU16` writes its register, `CUR`, `STATUS` and `ERR_OFF` (42_fixed_width.md R76). -/
theorem execRdu16_frame {rd : U16Reg} {s t : State} (h : execRdu16 rd s = .next t) :
    t = { setU16 rd (getU16 rd t) s with cur := t.cur, status := t.status, errOff := t.errOff } := by
  obtain ⟨f, -, rfl⟩ | ⟨-, -, -, rfl⟩ := execRdu16_next h <;> cases rd <;> rfl

/-- `RDADDR` writes its register, `CUR`, `STATUS` and `ERR_OFF` (42_fixed_width.md R78). -/
theorem execRdaddr_frame {ra : AddrReg} {s t : State} (h : execRdaddr ra s = .next t) :
    t = { setAddr ra (getAddr ra t) s with cur := t.cur, status := t.status, errOff := t.errOff } := by
  obtain ⟨f, -, rfl⟩ | ⟨-, -, -, rfl⟩ := execRdaddr_next h <;> cases ra <;> rfl

/-- Settles O21: the three frames, none of which writes the buffer. -/
theorem readersFrame : Obligations.ReadersFrame := by
  refine fun s t => ⟨execRdfc_frame, fun _ => execRdu16_frame, fun _ => execRdaddr_frame, fun h a => ?_⟩
  obtain h | ⟨rd, h⟩ | ⟨ra, h⟩ := h
  · rw [execRdfc_frame h]
  · rw [execRdu16_frame h, setU16_buf]
  · rw [execRdaddr_frame h, setAddr_buf]

end Sys2Proof.Machine
end

section
/-! The fixed-width field reader: what `RDU16` and `RDADDR` read, and how they fail without data. -/

namespace Sys2Proof.Machine

/-! Success. -/

/-- The word at an offset is the big-endian number of its two bytes (20_memory.md R37). -/
theorem wordAt_toNat (s : State) (a : Nat) :
    (s.wordAt a).toNat = (s.byteAt a).toNat * 256 + (s.byteAt (a + 1)).toNat :=
  toNat_append_add _ _

/-- `RDADDR` at an aligned cursor with six written bytes left gives them in raw order (42_fixed_width.md R78). -/
theorem execRdaddr_written {s : State} (ra : AddrReg) (ha : s.cur % 8 = 0) (hl : s.cur + 48 ≤ 8 * s.len)
    (hw : s.writtenFrom (s.cur / 8) 6) :
    execRdaddr ra s = .next (succeed { setAddr ra (some (s.addrAt (s.cur / 8))) s with cur := s.cur + 48 }) :=
  finish_next_iff.2 (.inr ⟨_, _, takeField_ok (addrStage ra) (by decide) ha hl,
    bind_ok_iff.2 ⟨_, readAddr_written (by dsimp only; omega) hw, rfl⟩, rfl⟩)

/-- Settles O16: the word read is the big-endian number, and the register it goes to is the one the operand names. -/
theorem rdu16ReadsBigEndian : Obligations.Rdu16ReadsBigEndian := by
  refine fun rd s ha hl hw => ⟨s.wordAt (s.cur / 8), wordAt_toNat s _, (execRdu16_written rd ha hl hw).trans ?_⟩
  cases rd with
  | duration | seqControl | crc => rfl

/-- Settles O18: the address read is the six bytes, and the register it goes to is the one the operand names. -/
theorem rdaddrReadsRawOrder : Obligations.RdaddrReadsRawOrder := by
  refine fun ra s ha hl hw => ⟨s.addrAt (s.cur / 8), rfl, (execRdaddr_written ra ha hl hw).trans ?_⟩
  cases ra with
  | addr1 | addr2 | addr3 | addr4 => rfl

/-! Failure. -/

/-- `RDU16` at an aligned cursor with fewer than two bytes left fails where it stands (42_fixed_width.md R77). -/
theorem execRdu16_short {s : State} (rd : U16Reg) (ha : s.cur % 8 = 0) (hl : availBytes s.len s.cur < 2) :
    execRdu16 rd s = .next (raise (destinations (.rdu16 rd)) ⟨.insufficientData, u16Stage rd, s.cur⟩ s) :=
  finish_next_iff.2 (.inl ⟨_, takeField_short _ (by decide) ha ((availBytes_lt_iff (by decide)).1 hl), rfl⟩)

/-- `RDADDR` at an aligned cursor with fewer than six bytes left fails where it stands (42_fixed_width.md R79). -/
theorem execRdaddr_short {s : State} (ra : AddrReg) (ha : s.cur % 8 = 0) (hl : availBytes s.len s.cur < 6) :
    execRdaddr ra s = .next (raise (destinations (.rdaddr ra)) ⟨.insufficientData, addrStage ra, s.cur⟩ s) :=
  finish_next_iff.2 (.inl ⟨_, takeField_short _ (by decide) ha ((availBytes_lt_iff (by decide)).1 hl), rfl⟩)

/-- Settles O17: each register's test for two bytes is raised at its own stage, with the cursor as its offset. -/
theorem rdu16FailsWithoutData : Obligations.Rdu16FailsWithoutData := fun _ ha hl =>
  ⟨execRdu16_short .duration ha hl, execRdu16_short .seqControl ha hl, execRdu16_short .crc ha hl⟩

/-- Settles O19: each register's test for six bytes is raised at its own stage, with the cursor as its offset. -/
theorem rdaddrFailsWithoutData : Obligations.RdaddrFailsWithoutData := fun _ ha hl =>
  ⟨execRdaddr_short .addr1 ha hl, execRdaddr_short .addr2 ha hl, execRdaddr_short .addr3 ha hl,
    execRdaddr_short .addr4 ha hl⟩

end Sys2Proof.Machine
end

section
/-! The frame assembler: what `SPAN` finds, what `PARSE` leaves of a frame, what each depends on, and what each leaves
unchanged. -/

namespace Sys2Proof.Machine

/-! `SPAN`. -/

/-- `SPAN` at an aligned cursor with the trailer left finds all that remains but the trailer (43_assembler.md R83). -/
theorem execSpan_found {s : State} (ha : s.cur % 8 = 0) (hl : s.cur + 16 ≤ 8 * s.len) :
    execSpan s = .next (succeed { s with
      payOff := some (s.cur / 8), payLen := some (s.len - s.cur / 8 - 2), cur := 8 * s.len - 16 }) :=
  finish_next_iff.2 (.inr ⟨_, _, takeSpan_ok_iff.2 ⟨ha, hl, rfl⟩, rfl, rfl⟩)

/-- `SPAN` whose tests fail raises their failure, whatever the buffer holds. -/
theorem execSpan_raises {s : State} {f : Failure} (h : takeSpan s.len s.cur = .error f) :
    execSpan s = .next (raise (destinations .span) f s) :=
  finish_next_iff.2 (.inl ⟨f, h, rfl⟩)

/-- The whole bytes left at an aligned cursor (00_scope.md R12). -/
theorem availBytes_of_aligned {len c : Nat} (ha : c % 8 = 0) : availBytes len c = len - c / 8 := by
  unfold availBytes availBits
  split <;> omega

/-- Settles O23: at an aligned cursor the bytes left are those from its byte offset to `LEN`, so the cursor ends two bytes
before `LEN`, and with two left it is there already. -/
theorem spanLocatesPayload : Obligations.SpanLocatesPayload := by
  intro s ha hr
  have hl : s.cur + 16 ≤ 8 * s.len := Nat.le_of_not_lt fun h => Nat.not_lt.2 hr ((availBytes_lt_iff (by decide)).2 h)
  have hend : s.cur + 8 * (availBytes s.len s.cur - 2) = 8 * s.len - 16 := by
    rw [availBytes_of_aligned ha]
    omega
  have hspan := execSpan_found ha hl
  rw [← availBytes_of_aligned ha, ← hend] at hspan
  refine ⟨hspan, hend, fun h2 => ?_⟩
  rw [h2] at hspan
  exact hspan

/-- Settles O24: the data test is raised at the cursor; a span that was found has the trailer after it. -/
theorem spanTooShortIsTruncated : Obligations.SpanTooShortIsTruncated := by
  refine ⟨fun s ha hr => ?_, fun s t n h hn => ?_⟩
  · have hl := (availBytes_lt_iff (by decide)).1 hr
    exact (execSpan_raises (takeSpan_error_iff.2 (.inr ⟨ha, hl, rfl⟩))).trans (congrArg _ (raise_span ..))
  · obtain h | h := h
    · obtain ⟨f, -, rfl⟩ | ⟨-, hl, rfl⟩ := execSpan_next h
      · cases hn
      · cases hn
        omega
    · obtain ⟨-, rfl⟩ | ⟨hl, -, -, rfl⟩ := execParse_next h
      · cases hn
      · cases hn
        omega

/-- Settles O25: the tests and the commit of `SPAN` take `LEN` and `CUR` alone. -/
theorem spanReadsNoByte : Obligations.SpanReadsNoByte := by
  intro s t m h
  obtain ⟨f, hf, rfl⟩ | ⟨ha, hl, rfl⟩ := execSpan_next h
  · exact execSpan_raises (s := { s with buf := m }) hf
  · exact execSpan_found (s := { s with buf := m }) ha hl

/-! `PARSE`. -/

/-- `PARSE` of a frame of fewer than 32 bytes raises the failure of the table (43_assembler.md R89). -/
theorem execParse_short {s : State} (hl : s.len < 32) :
    execParse s = .next (raise (destinations .parse) (parseFailure s.len) s) :=
  finish_next_iff.2 (.inl ⟨_, locateFrame_short hl, rfl⟩)

/-- `PARSE` of a frame of 32 bytes or more whose header and trailer are written commits it (43_assembler.md R88). -/
theorem execParse_written {s : State} (hl : 32 ≤ s.len) (hh : s.writtenFrom 0 30) (ht : s.writtenFrom (s.len - 2) 2) :
    execParse s = .next (succeed (parsed s)) :=
  finish_next_iff.2 (.inr ⟨_, _, locateFrame_long hl, commitFrame_long hl hh ht, rfl⟩)

/-- `PARSE` succeeds exactly on frames of 32 bytes or more (43_assembler.md R88). -/
theorem execParse_err_eq_false_iff {s t : State} (h : execParse s = .next t) : t.status.err = false ↔ 32 ≤ s.len := by
  obtain ⟨hl, rfl⟩ | ⟨hl, -, -, rfl⟩ := execParse_next h
  · exact ⟨nofun, fun hle => absurd hl (Nat.not_lt.2 hle)⟩
  · exact ⟨fun _ => hl, fun _ => rfl⟩

/-- Settles O26: the committed words and addresses are those bytes, the frame-control word slice by slice. -/
theorem parseDecodesWholeFrame : Obligations.ParseDecodesWholeFrame := by
  refine ⟨fun s hl hh ht => ?_, fun s t => execParse_err_eq_false_iff⟩
  have hlast : s.len - 1 = s.len - 2 + 1 := by omega
  rw [← fcOfWord_append, hlast]
  exact execParse_written hl hh ht

/-- Settles O27: a frame of 32 bytes or more is committed, and the length of a shorter one picks its row of the table. -/
theorem parseFailureIsByLengthAlone : Obligations.ParseFailureIsByLengthAlone := by
  refine ⟨fun s t hl h => ?_, fun s hl => ⟨_, execParse_short hl, ?_⟩⟩
  · obtain ⟨hshort, -⟩ | ⟨-, -, -, rfl⟩ := execParse_next h
    · exact absurd hshort (Nat.not_lt.2 hl)
    · exact ⟨rfl, rfl⟩
  · rw [raise_status, raise_errOff]
    refine ⟨fun _ => ?_, fun _ => ?_, fun _ => ?_, fun _ => ?_, fun _ => ?_, fun _ => ?_, fun _ => ?_, fun _ => ?_⟩
    all_goals simp (disch := omega) only [parseFailure, if_pos, if_neg, Condition.code, Status.failed, and_self]

/-- Settles O28: the failure clears every destination and no other register; the commit fills every destination. -/
theorem parseIsAllOrNothing : Obligations.ParseIsAllOrNothing := by
  intro s t h
  obtain ⟨-, rfl⟩ | ⟨-, -, -, rfl⟩ := execParse_next h
  · exact .inr ⟨raise_parse .., rfl, rfl⟩
  · exact .inl ⟨rfl, rfl, rfl⟩

/-! What `PARSE` depends on. -/

/-- Two states hold the same frame: the same `LEN` and the same bytes below it (43_assembler.md R91). -/
structure State.SameFrame (s t : State) : Prop where
  len : s.len = t.len
  bytes : ∀ a, a < s.len → Memory.get s.buf a = Memory.get t.buf a

section
variable {s t : State} (h : s.SameFrame t)
include h

/-- The bytes below `LEN` are the same. -/
theorem State.SameFrame.byteAt {a : Nat} (ha : a < s.len) : t.byteAt a = s.byteAt a := by
  rw [State.byteAt, State.byteAt, h.bytes a ha]

/-- Bytes below `LEN` that are written in one are written in the other. -/
theorem State.SameFrame.writtenFrom {a n : Nat} (ha : a + n ≤ s.len) (hw : s.writtenFrom a n) : t.writtenFrom a n := by
  intro j hj
  rw [State.written, ← h.bytes (a + j) (by omega)]
  exact hw j hj

/-- The words below `LEN` are the same. -/
theorem State.SameFrame.wordAt {a : Nat} (ha : a + 2 ≤ s.len) : t.wordAt a = s.wordAt a := by
  rw [State.wordAt, State.wordAt, h.byteAt (by omega), h.byteAt (by omega)]

/-- The addresses below `LEN` are the same. -/
theorem State.SameFrame.addrAt {a : Nat} (ha : a + 6 ≤ s.len) : t.addrAt a = s.addrAt a := by
  rw [State.addrAt, State.addrAt, h.byteAt (by omega), h.byteAt (by omega), h.byteAt (by omega), h.byteAt (by omega),
    h.byteAt (by omega), h.byteAt (by omega)]

/-- What `PARSE` commits of the other state is that state with the record, span and cursor it commits of the first. -/
theorem State.SameFrame.parsed_eq (hl : 32 ≤ s.len) :
    parsed t = { t with
      fc := (parsed s).fc
      duration := (parsed s).duration
      addr1 := (parsed s).addr1
      addr2 := (parsed s).addr2
      addr3 := (parsed s).addr3
      addr4 := (parsed s).addr4
      seqControl := (parsed s).seqControl
      crc := (parsed s).crc
      payOff := (parsed s).payOff
      payLen := (parsed s).payLen
      cur := (parsed s).cur } := by
  unfold parsed
  rw [← h.len, h.wordAt (by omega), h.wordAt (by omega), h.wordAt (by omega), h.wordAt (by omega), h.addrAt (by omega),
    h.addrAt (by omega), h.addrAt (by omega), h.addrAt (by omega)]

end

/-- Settles O29: a failure is of the length alone and a commit of the bytes below it; neither `LEN` nor the buffer is
written, so that a second `PARSE` finds the frame the first found. -/
theorem parseDependsOnFrameAlone : Obligations.ParseDependsOnFrameAlone := by
  refine ⟨fun s₁ s₂ t₁ hlen hbytes h => ?_, fun s t h => ?_⟩
  · have hsame : s₁.SameFrame s₂ := ⟨hlen, hbytes⟩
    obtain ⟨hl, rfl⟩ | ⟨hl, hh, ht, rfl⟩ := execParse_next h
    · refine ⟨_, execParse_short (hlen ▸ hl), ?_⟩
      rw [← hlen]
      exact ⟨rfl, rfl, rfl, rfl, rfl, rfl, rfl, rfl, rfl, rfl, rfl, rfl, nofun⟩
    · have ht₂ : s₂.writtenFrom (s₂.len - 2) 2 := hlen ▸ hsame.writtenFrom (by omega) ht
      refine ⟨_, execParse_written (hlen ▸ hl) (hsame.writtenFrom (by omega) hh) ht₂, ?_⟩
      rw [hsame.parsed_eq hl]
      exact ⟨rfl, rfl, rfl, rfl, rfl, rfl, rfl, rfl, rfl, rfl, rfl, rfl, fun _ => rfl⟩
  · obtain ⟨hl, rfl⟩ | ⟨hl, hh, ht, rfl⟩ := execParse_next h
    · have hl' : (raise (destinations .parse) (parseFailure s.len) s).len < 32 := by rwa [raise_len]
      rw [exec, execParse_short hl', raise_len, raise_parse, raise_parse]
    · exact execParse_written (s := succeed (parsed s)) hl hh ht

/-! The end of the frame. -/

/-- At the end of the frame no bit is left. -/
theorem availBits_end (len : Nat) : availBits len (8 * len) = 0 := by
  unfold availBits
  split <;> omega

/-- At the end of the frame no byte is left. -/
theorem availBytes_end (len : Nat) : availBytes len (8 * len) = 0 := by rw [availBytes, availBits_end]

/-- Settles O31: a success leaves the cursor at the end of the frame, where every reader is short of data. -/
theorem nothingRemainsAfterParse : Obligations.NothingRemainsAfterParse := by
  intro s t h hok
  have hcur : t.cur = 8 * t.len := by
    obtain ⟨-, rfl⟩ | ⟨-, -, -, rfl⟩ := execParse_next h
    · cases hok
    · rfl
  have haligned : t.cur % 8 = 0 := by omega
  have hbytes : availBytes t.len t.cur = 0 := hcur ▸ availBytes_end t.len
  refine ⟨hcur, hcur ▸ availBits_end t.len, fun i hi => ?_⟩
  obtain ⟨w, rfl⟩ | rfl | ⟨rd, rfl⟩ | ⟨ra, rfl⟩ := hi
  · exact ⟨_, execRdbits_short (hcur ▸ Nat.lt_add_of_pos_right (widthBits_pos w)), rfl⟩
  · exact ⟨_, execRdfc_short haligned (by omega), rfl⟩
  · exact ⟨_, execRdu16_short rd haligned (by omega), rfl⟩
  · exact ⟨_, execRdaddr_short ra haligned (by omega), rfl⟩

/-! Completion. -/

/-- A command byte stops only at a byte below `LEN` that holds `none` (20_memory.md R36). -/
theorem runCommand_fault {b : Byte} {s : State} {e : Fault} (h : runCommand b s = .fault e) :
    ∃ x, x < s.len ∧ s.written x = false ∧ e = .byteHoldsNone x := by
  unfold runCommand at h
  split at h
  · exact exec_fault h
  · cases h

/-- Settles O43: a command is never refused, and a written frame has no byte for it to stop at. -/
theorem writtenFrameCompletes : Obligations.WrittenFrameCompletes := by
  intro b s hw
  cases h : runCommand b s with
  | next t => exact ⟨t, rfl⟩
  | fault e =>
    obtain ⟨x, hx, hunwritten, -⟩ := runCommand_fault h
    exact absurd ((hw x hx).symm.trans hunwritten) nofun
  | refused r => exact absurd h (runCommand_ne_refused b s r)

/-! The frame of the assembler. -/

/-- `SPAN` writes the span registers, `CUR`, `STATUS` and `ERR_OFF` (43_assembler.md R83). -/
theorem execSpan_frame {s t : State} (h : execSpan s = .next t) :
    t = { s with payOff := t.payOff, payLen := t.payLen, cur := t.cur, status := t.status, errOff := t.errOff } := by
  obtain ⟨f, -, rfl⟩ | ⟨-, -, rfl⟩ := execSpan_next h <;> rfl

/-- `PARSE` writes the record, the span registers, `CUR`, `STATUS` and `ERR_OFF` (43_assembler.md R87). -/
theorem execParse_frame {s t : State} (h : execParse s = .next t) :
    t = { s with
      fc := t.fc
      duration := t.duration
      addr1 := t.addr1
      addr2 := t.addr2
      addr3 := t.addr3
      addr4 := t.addr4
      seqControl := t.seqControl
      crc := t.crc
      payOff := t.payOff
      payLen := t.payLen
      cur := t.cur
      status := t.status
      errOff := t.errOff } := by
  obtain ⟨-, rfl⟩ | ⟨-, -, -, rfl⟩ := execParse_next h
  · rw [raise_parse]
  · rfl

/-- Settles O33: the two frames, neither of which writes the buffer. -/
theorem assemblerFrame : Obligations.AssemblerFrame := by
  refine fun s t => ⟨execSpan_frame, execParse_frame, fun h a => ?_⟩
  obtain h | h := h
  · rw [execSpan_frame h]
  · rw [execParse_frame h]

end Sys2Proof.Machine
end

section
/-! The replace operations of the Frame Record: the record registers each of them copies, and sequences of replacements
that the host makes (44_record_replace.md). -/

namespace Sys2Proof.Machine

/-! Two replace operations with the operand registers as they are. -/

/-- The record registers that a replace operation copies from the operand registers; `STATUS` and `ERR_OFF` apart, all that
it writes (44_record_replace.md R95 to R99). No other operation copies any. -/
def State.copyOperands (s : State) : Instr → State
  | .setfc => { s with fc := s.argFc.map fcOfWord }
  | .setaddrs => { s with addr1 := s.argAddr1, addr2 := s.argAddr2, addr3 := s.argAddr3, addr4 := s.argAddr4 }
  | .setdur => { s with duration := s.argU16 }
  | .setseq => { s with seqControl := s.argU16 }
  | .setcrc => { s with crc := s.argU16 }
  | .rdbits _ | .rdfc | .rdu16 _ | .rdaddr _ | .span | .parse => s

/-- A replace operation copies its operands and succeeds (44_record_replace.md R94). -/
theorem exec_of_isReplace {i : Instr} (hi : isReplace i = true) (s : State) :
    exec i s = .next (succeed (s.copyOperands i)) := by
  cases i with
  | setfc | setaddrs | setdur | setseq | setcrc => rfl
  | rdbits _ | rdfc | rdu16 _ | rdaddr _ | span | parse => cases hi

/-- A copy reads neither `STATUS` nor `ERR_OFF` and leaves both. -/
theorem copyOperands_succeed (s : State) (i : Instr) : (succeed s).copyOperands i = succeed (s.copyOperands i) := by
  cases i <;> rfl

/-- A copy reads operand registers alone and writes none, so the order of two copies does not matter. -/
theorem copyOperands_comm (s : State) (i j : Instr) :
    (s.copyOperands i).copyOperands j = (s.copyOperands j).copyOperands i := by
  cases i with
  | setfc | setaddrs | setdur | setseq | setcrc => cases j <;> rfl
  | rdbits _ | rdfc | rdu16 _ | rdaddr _ | span | parse => rfl

/-- A copy made twice is made once. -/
theorem copyOperands_idem (s : State) (i : Instr) : (s.copyOperands i).copyOperands i = s.copyOperands i := by
  cases i <;> rfl

/-- Two replace operations copy the operands of the one and then of the other, and succeed. -/
theorem runAll_pair_of_isReplace {i j : Instr} (hi : isReplace i = true) (hj : isReplace j = true) (s : State) :
    runAll [i, j] s = .next (succeed ((s.copyOperands i).copyOperands j)) := by
  rw [runAll_cons_of_next (exec_of_isReplace hi s), runAll_cons_of_next (exec_of_isReplace hj _), copyOperands_succeed]
  rfl

/-! Sequences of replacements, each with its operands written before it. -/

/-- The host's inputs of a sequence of replacements run to their end, one replacement applied after another. -/
theorem serveAll_replacements (p : List Replacement) (s : State) :
    serveAll (p.flatMap Replacement.inputs) s = .next (p.foldl Replacement.applied s) := by
  induction p generalizing s with
  | nil => rfl
  | cons r p ih => rw [List.flatMap_cons, serveAll_append _ _ _ _ (serveAll_replacement r s), ih, List.foldl_cons]

/-! A replacement leaves the record registers of the other operations alone (44_record_replace.md R94). -/

section
variable (s : State) (r : Replacement)

theorem applied_fc (h : r.instr ≠ .setfc) : (r.applied s).fc = s.fc := by
  cases r with
  | fc => exact absurd rfl h
  | addrs | duration | seqControl | crc => rfl

theorem applied_addrs (h : r.instr ≠ .setaddrs) (ra : AddrReg) : getAddr ra (r.applied s) = getAddr ra s := by
  cases r with
  | addrs => exact absurd rfl h
  | fc | duration | seqControl | crc => cases ra <;> rfl

theorem applied_duration (h : r.instr ≠ .setdur) : (r.applied s).duration = s.duration := by
  cases r with
  | duration => exact absurd rfl h
  | fc | addrs | seqControl | crc => rfl

theorem applied_seqControl (h : r.instr ≠ .setseq) : (r.applied s).seqControl = s.seqControl := by
  cases r with
  | seqControl => exact absurd rfl h
  | fc | addrs | duration | crc => rfl

theorem applied_crc (h : r.instr ≠ .setcrc) : (r.applied s).crc = s.crc := by
  cases r with
  | crc => exact absurd rfl h
  | fc | addrs | duration | seqControl => rfl

end

/-- What every replacement but those made by `i` leaves unchanged, a sequence without any made by `i` does. -/
theorem foldl_applied_unchanged {α : Type} {field : State → α} {i : Instr}
    (hfield : ∀ (s : State) (r : Replacement), r.instr ≠ i → field (r.applied s) = field s) {p : List Replacement}
    (hp : ∀ r ∈ p, r.instr ≠ i) (s : State) : field (p.foldl Replacement.applied s) = field s := by
  induction p generalizing s with
  | nil => rfl
  | cons r p ih =>
    obtain ⟨hr, hp⟩ := List.forall_mem_cons.1 hp
    rw [List.foldl_cons, ih hp, hfield s r hr]

/-- The record holds what a replacement has just supplied. -/
theorem heldBy_applied (r : Replacement) (s : State) : r.heldBy (r.applied s) := by
  cases r with
  | fc w =>
    show some (fcOfWord w).number = some w.toNat
    rw [← wordOfFc_toNat, wordOfFc_fcOfWord]
  | addrs => exact ⟨rfl, rfl, rfl, rfl⟩
  | duration | seqControl | crc => rfl

/-- Whether the record holds what a replacement supplied, no replacement of other registers changes. -/
theorem heldBy_applied_of_ne {r : Replacement} (s : State) (x : Replacement) (h : x.instr ≠ r.instr) :
    r.heldBy (x.applied s) = r.heldBy s := by
  cases r with
  | fc => simp only [Replacement.heldBy, applied_fc s x h]
  | addrs x1 x2 x3 x4 =>
    show (getAddr .addr1 (x.applied s) = some x1 ∧ getAddr .addr2 (x.applied s) = some x2 ∧
      getAddr .addr3 (x.applied s) = some x3 ∧ getAddr .addr4 (x.applied s) = some x4) = _
    simp only [applied_addrs s x h]
    rfl
  | duration => simp only [Replacement.heldBy, applied_duration s x h]
  | seqControl => simp only [Replacement.heldBy, applied_seqControl s x h]
  | crc => simp only [Replacement.heldBy, applied_crc s x h]

/-- After a sequence the record holds what the last replacement of a register supplied (44_record_replace.md R101). -/
theorem heldBy_foldl_applied {a b : List Replacement} {r : Replacement} (hb : ∀ x ∈ b, x.instr ≠ r.instr) (s : State) :
    r.heldBy ((a ++ r :: b).foldl Replacement.applied s) := by
  rw [List.foldl_append, List.foldl_cons]
  have hkept := foldl_applied_unchanged (field := fun t => r.heldBy t) heldBy_applied_of_ne hb
  exact (hkept _).mpr (heldBy_applied r _)

/-! The record alone, in which the order of replacements of different registers leaves no trace. -/

/-- The nine registers of the Frame Record (10_state.md R18). -/
structure Record where
  fc : Option FrameControl
  duration : Option Word
  addr1 : Option Address
  addr2 : Option Address
  addr3 : Option Address
  addr4 : Option Address
  seqControl : Option Word
  payload : Payload
  crc : Option Word

/-- The Frame Record of a state. -/
def State.record (s : State) : Record :=
  ⟨s.fc, s.duration, s.addr1, s.addr2, s.addr3, s.addr4, s.seqControl, s.payload, s.crc⟩

/-- A record with the registers of a replacement replaced. -/
def Record.replace (c : Record) : Replacement → Record
  | .fc w => { c with fc := some (fcOfWord w) }
  | .addrs x1 x2 x3 x4 => { c with addr1 := some x1, addr2 := some x2, addr3 := some x3, addr4 := some x4 }
  | .duration w => { c with duration := some w }
  | .seqControl w => { c with seqControl := some w }
  | .crc w => { c with crc := some w }

/-- A replacement acts on the record alone, whatever else the state holds. -/
theorem record_applied (s : State) (r : Replacement) : (r.applied s).record = s.record.replace r := by
  cases r <;> rfl

/-- Replacements of different registers commute. -/
theorem Record.replace_comm (c : Record) {x y : Replacement} (h : x.instr ≠ y.instr) :
    (c.replace x).replace y = (c.replace y).replace x := by
  cases x with
  | fc =>
    cases y with
    | fc => exact absurd rfl h
    | addrs | duration | seqControl | crc => rfl
  | addrs =>
    cases y with
    | addrs => exact absurd rfl h
    | fc | duration | seqControl | crc => rfl
  | duration =>
    cases y with
    | duration => exact absurd rfl h
    | fc | addrs | seqControl | crc => rfl
  | seqControl =>
    cases y with
    | seqControl => exact absurd rfl h
    | fc | addrs | duration | crc => rfl
  | crc =>
    cases y with
    | crc => exact absurd rfl h
    | fc | addrs | duration | seqControl => rfl

/-- Any order of replacements of different registers gives the same record (44_record_replace.md R101). -/
theorem record_foldl_applied_perm {p q : List Replacement} (hpq : p.Perm q) (hp : (p.map Replacement.instr).Nodup)
    (s : State) : (p.foldl Replacement.applied s).record = (q.foldl Replacement.applied s).record := by
  have hrecord (l : List Replacement) : l.foldl Record.replace s.record = (l.foldl Replacement.applied s).record :=
    List.foldl_hom State.record fun t r => (record_applied t r).symm
  rw [← hrecord, ← hrecord]
  have hdiffer : p.Pairwise fun x y => x.instr ≠ y.instr := List.pairwise_map.1 hp
  refine hpq.foldl_eq' (List.Pairwise.forall_of_forall_of_flip (fun _ _ _ => rfl) ?_ ?_) s.record
  · exact hdiffer.imp fun h c => c.replace_comm h
  · exact hdiffer.imp fun h c => (c.replace_comm h).symm

/-- Settles O38: copies from the same operands commute and repeat without effect; a sequence of replacements is their fold,
in which the last of a register stays and the order of different ones does not matter. -/
theorem replaceOperationsCommute : Obligations.ReplaceOperationsCommute := by
  refine ⟨fun i j s hi hj => ⟨?_, ?_⟩, fun p s => ⟨_, serveAll_replacements p s, ?_⟩, fun p q s hpq hp => ?_⟩
  · rw [runAll_pair_of_isReplace hi hj, runAll_pair_of_isReplace hj hi, copyOperands_comm]
  · rw [runAll_pair_of_isReplace hi hi, copyOperands_idem, exec_of_isReplace hi]
  · refine ⟨?_, fun h => foldl_applied_unchanged applied_fc h s, fun h => ?_,
      fun h => foldl_applied_unchanged applied_duration h s, fun h => foldl_applied_unchanged applied_seqControl h s,
      fun h => foldl_applied_unchanged applied_crc h s⟩
    · rintro a r b rfl hb
      exact heldBy_foldl_applied hb s
    · have haddr (ra : AddrReg) := foldl_applied_unchanged (field := getAddr ra) (fun t r hr => applied_addrs t r hr ra) h s
      exact ⟨haddr .addr1, haddr .addr2, haddr .addr3, haddr .addr4⟩
  · exact ⟨_, _, serveAll_replacements p s, serveAll_replacements q s, Record.mk.inj (record_foldl_applied_perm hpq hp s)⟩

/-! What the host reads afterwards, and what each operation writes. -/

/-- Settles O39: `FC` shows the word it was unpacked from, and the others are copied as they are. -/
theorem replaceRoundTrip : Obligations.ReplaceRoundTrip := by
  refine fun s => ⟨⟨_, rfl, ?_⟩, ⟨_, rfl, fun ra => ?_⟩, ⟨_, rfl, rfl⟩, ⟨_, rfl, rfl⟩, ⟨_, rfl, rfl⟩⟩
  · show (s.argFc.map fcOfWord).map (fun f => (wordOfFc f).toNat) = s.argFc.map BitVec.toNat
    simp only [Option.map_map, Function.comp_def, wordOfFc_fcOfWord]
  · cases ra <;> rfl

/-- Settles O34: `SETFC` unpacks `ARG_FC`. -/
theorem setfcReplacesFrameControl : Obligations.SetfcReplacesFrameControl :=
  ⟨decode_encode .setfc, exec_of_isReplace (i := .setfc) rfl⟩

/-- Settles O35: `SETADDRS` copies the four address operands. -/
theorem setaddrsReplacesAllFour : Obligations.SetaddrsReplacesAllFour :=
  ⟨decode_encode .setaddrs, exec_of_isReplace (i := .setaddrs) rfl⟩

/-- Settles O36: each of the three copies `ARG_U16`. -/
theorem setU16ReplacesOneRegister : Obligations.SetU16ReplacesOneRegister :=
  ⟨decode_encode .setdur, decode_encode .setseq, decode_encode .setcrc, fun s =>
    ⟨exec_of_isReplace (i := .setdur) rfl s, exec_of_isReplace (i := .setseq) rfl s,
      exec_of_isReplace (i := .setcrc) rfl s⟩⟩

/-- Settles O37: each operation writes its registers, `STATUS` and `ERR_OFF`, and none writes the buffer. -/
theorem replaceFrame : Obligations.ReplaceFrame := by
  refine fun s t => ⟨?_, ?_, ?_, ?_, ?_, fun i _ h a => ?_⟩
  iterate 5 rintro ⟨⟩; rfl
  obtain ⟨hbuf, -⟩ := engineNeverWritesItsInputs i s t h
  rw [hbuf]

end Sys2Proof.Machine
end

section
/-! Exceptions: the reserved byte, the misaligned cursor, what a failure leaves, why none is sticky, and which instruction
raises which condition (60_exceptions.md). -/

namespace Sys2Proof.Machine

/-! The reserved byte. -/

/-- Settles O5: a reserved byte is an illegal command, which has no destination. -/
theorem reservedByteIsIllegalCommand : Obligations.ReservedByteIsIllegalCommand := by
  intro s b hb
  rw [serve_command, runCommand_of_reserved hb, illegalCommand_eq]
  rfl

/-! What a failure leaves. -/

/-- An instruction that goes on either raised a failure on its destinations or succeeded (60_exceptions.md R108). -/
theorem exec_raised_or_succeeded {i : Instr} {s t : State} (h : exec i s = .next t) :
    (∃ f, t = raise (destinations i) f s) ∨ ∃ u, t = succeed u := by
  cases i with
  | rdbits w =>
    obtain ⟨-, rfl⟩ | ⟨-, -, rfl⟩ := execRdbits_next h
    · exact .inl ⟨_, rfl⟩
    · exact .inr ⟨_, rfl⟩
  | rdfc =>
    obtain ⟨f, -, rfl⟩ | ⟨-, -, -, rfl⟩ := execRdfc_next h
    · exact .inl ⟨f, rfl⟩
    · exact .inr ⟨_, rfl⟩
  | rdu16 rd =>
    obtain ⟨f, -, rfl⟩ | ⟨-, -, -, rfl⟩ := execRdu16_next h
    · exact .inl ⟨f, rfl⟩
    · exact .inr ⟨_, rfl⟩
  | rdaddr ra =>
    obtain ⟨f, -, rfl⟩ | ⟨-, -, -, rfl⟩ := execRdaddr_next h
    · exact .inl ⟨f, rfl⟩
    · exact .inr ⟨_, rfl⟩
  | span =>
    obtain ⟨f, -, rfl⟩ | ⟨-, -, rfl⟩ := execSpan_next h
    · exact .inl ⟨f, rfl⟩
    · exact .inr ⟨_, rfl⟩
  | parse =>
    obtain ⟨-, rfl⟩ | ⟨-, -, -, rfl⟩ := execParse_next h
    · exact .inl ⟨_, rfl⟩
    · exact .inr ⟨_, rfl⟩
  | setfc | setaddrs | setdur | setseq | setcrc => cases h; exact .inr ⟨_, rfl⟩

/-- Settles O44: only a raised failure has `ERR` set, and it clears the destinations and writes `STATUS` and `ERR_OFF`. -/
theorem failuresArePrecise : Obligations.FailuresArePrecise := by
  intro i s t h herr
  obtain ⟨f, rfl⟩ | ⟨u, rfl⟩ := exec_raised_or_succeeded h
  · exact ⟨rfl, raise_cur ..⟩
  · cases herr

/-! What no command reads: the old `STATUS` and `ERR_OFF`. -/

/-- The state with other values in `STATUS` and `ERR_OFF`. -/
def State.withReport (st : Status) (e : Nat) (s : State) : State := { s with status := st, errOff := e }

section
variable (st : Status) (e : Nat) (s : State)

/-- Clearing a destination leaves `STATUS` and `ERR_OFF` as they were. -/
theorem clearDest_withReport (d : Dest) : clearDest (s.withReport st e) d = (clearDest s d).withReport st e := by
  cases d with
  | u16 rd => cases rd <;> rfl
  | addr ra => cases ra <;> rfl
  | _ => rfl

/-- A failure overwrites the old `STATUS` and `ERR_OFF`. -/
theorem raise_withReport (ds : List Dest) (f : Failure) : raise ds f (s.withReport st e) = raise ds f s := by
  induction ds generalizing s with
  | nil => rfl
  | cons d ds ih =>
    show raise ds f (clearDest (s.withReport st e) d) = raise ds f (clearDest s d)
    rw [clearDest_withReport, ih]

/-- A read of bits sees neither `STATUS` nor `ERR_OFF`. -/
theorem readBits_withReport (c w : Nat) : readBits (s.withReport st e) c w = readBits s c w := by
  induction w with
  | zero => rfl
  | succ k ih => rw [readBits, ih]; rfl

/-- Both ends of a reading operation overwrite `STATUS` and `ERR_OFF`, so it ends the same if its commit carries their old
values along. -/
theorem finish_withReport {α : Type} {ds : List Dest} {t : Except Failure α} {k k' : α → Except Fault State}
    (hk : ∀ a, k' a = State.withReport st e <$> k a) : finish ds (s.withReport st e) t k' = finish ds s t k := by
  cases t with
  | error f => simp only [finish, raise_withReport]
  | ok a =>
    simp only [finish, hk]
    cases k a <;> rfl

/-- The outcome of an instruction does not depend on the old `STATUS` and `ERR_OFF` (60_exceptions.md R114). -/
theorem exec_withReport (i : Instr) : exec i (s.withReport st e) = exec i s := by
  cases i with
  | rdbits w => exact finish_withReport st e s fun _ => by rw [map_bind, readBits_withReport]; rfl
  | rdfc => exact finish_withReport st e s fun _ => by rw [map_bind]; rfl
  | rdu16 rd => exact finish_withReport st e s fun _ => by rw [map_bind]; cases rd <;> rfl
  | rdaddr ra => exact finish_withReport st e s fun _ => by rw [map_bind]; cases ra <;> rfl
  | span =>
    show execSpan (s.withReport st e) = execSpan s
    exact finish_withReport st e s fun _ => by rfl
  | parse => exact finish_withReport st e s fun _ => by simp only [commitFrame, map_bind]; rfl
  | setfc | setaddrs | setdur | setseq | setcrc => rfl

end

/-- Settles O45: a legal byte runs an instruction, and both that and an illegal command overwrite `STATUS` and `ERR_OFF`. -/
theorem errorsAreNotSticky : Obligations.ErrorsAreNotSticky := by
  intro b s st e
  cases h : decode b with
  | ok i =>
    rw [runCommand_of_decode h, runCommand_of_decode h]
    exact exec_withReport st e s i
  | error r => simp only [runCommand, h, illegalCommand_eq]

/-! Which instruction raises which condition. -/

/-- The instructions that raise `MISALIGNED_CURSOR` (60_exceptions.md R109). -/
def IsByteGranular (i : Instr) : Prop :=
  i = .rdfc ∨ (∃ rd, i = .rdu16 rd) ∨ (∃ ra, i = .rdaddr ra) ∨ i = .span

/-- A report that an instruction issued at `cur` may give: its condition is one that the instruction raises
(60_exceptions.md R103). -/
def IsReportFor (i : Instr) (cur : Nat) (r : Status × Nat) : Prop :=
  r.1.code ≠ .illegalCommand ∧
  (r.1.code = .truncatedFrame → i = .span ∨ (i = .parse ∧ r.1.stage = .payload)) ∧
  (r.1.code = .misalignedCursor → IsByteGranular i ∧ bitInByte cur ≠ 0 ∧ r.2 = cur) ∧
  (r.1.code = .insufficientData → i ≠ .span ∧ isReplace i = false ∧ r.1.stage ≠ .payload)

section
variable {i : Instr} {cur off : Nat} {st : Stage}

theorem isReportFor_success : IsReportFor i cur (Status.success, 0) := ⟨nofun, nofun, nofun, nofun⟩

theorem isReportFor_misaligned (hi : IsByteGranular i) (hc : bitInByte cur ≠ 0) :
    IsReportFor i cur (Status.failed .misalignedCursor st, cur) :=
  ⟨nofun, nofun, fun _ => ⟨hi, hc, rfl⟩, nofun⟩

theorem isReportFor_truncated (hi : i = .span ∨ (i = .parse ∧ st = .payload)) :
    IsReportFor i cur (Status.failed .truncatedFrame st, off) :=
  ⟨nofun, fun _ => hi, nofun, nofun⟩

theorem isReportFor_insufficient (hspan : i ≠ .span) (hi : isReplace i = false) (hst : st ≠ .payload) :
    IsReportFor i cur (Status.failed .insufficientData st, off) :=
  ⟨nofun, nofun, nofun, fun _ => ⟨hspan, hi, hst⟩⟩

/-- A test that fires gives a report of its condition, and what follows if it does not gives its own. -/
theorem isReportFor_ite {p : Prop} [Decidable p] {fired passed : Status × Nat} (hf : p → IsReportFor i cur fired)
    (hp : IsReportFor i cur passed) : IsReportFor i cur (if p then fired else passed) := by
  split
  · exact hf ‹p›
  · exact hp

/-- A byte-granular read of a record field reports a misaligned cursor, short data or success. -/
theorem fieldReport_isReportFor (len n : Nat) (hi : IsByteGranular i) (hspan : i ≠ .span) (hrep : isReplace i = false)
    (hst : st ≠ .payload) : IsReportFor i cur (fieldReport len cur n st) :=
  isReportFor_ite (isReportFor_misaligned hi)
    (isReportFor_ite (fun _ => isReportFor_insufficient hspan hrep hst) isReportFor_success)

end

/-- `PARSE` fails with short data at a stage before the payload, or with a truncated frame there (43_assembler.md R89). -/
theorem parseFailure_isReportFor (len cur : Nat) :
    IsReportFor .parse cur
      (Status.failed (parseFailure len).cond.code (parseFailure len).stage, (parseFailure len).off) := by
  unfold parseFailure
  iterate 7
    split
    · exact isReportFor_insufficient nofun rfl nofun
  exact isReportFor_truncated (.inr ⟨rfl, rfl⟩)

/-- Each instruction reports a condition of its own. -/
theorem commandReport_isReportFor (len cur : Nat) (i : Instr) : IsReportFor i cur (commandReport len cur i) := by
  cases i with
  | rdbits w => exact isReportFor_ite (fun _ => isReportFor_insufficient nofun rfl nofun) isReportFor_success
  | rdfc => exact fieldReport_isReportFor len 2 (.inl rfl) nofun rfl nofun
  | rdu16 rd =>
    rw [commandReport_rdu16]
    exact fieldReport_isReportFor len 2 (.inr (.inl ⟨rd, rfl⟩)) nofun rfl (by cases rd <;> nofun)
  | rdaddr ra =>
    rw [commandReport_rdaddr]
    exact fieldReport_isReportFor len 6 (.inr (.inr (.inl ⟨ra, rfl⟩))) nofun rfl (by cases ra <;> nofun)
  | span =>
    exact isReportFor_ite (isReportFor_misaligned (.inr (.inr (.inr rfl))))
      (isReportFor_ite (fun _ => isReportFor_truncated (.inl rfl)) isReportFor_success)
  | parse => exact isReportFor_ite (fun _ => parseFailure_isReportFor len cur) isReportFor_success
  | setfc | setaddrs | setdur | setseq | setcrc => exact isReportFor_success

/-- Settles O47: what an instruction leaves is its report. -/
theorem conditionsHaveTheirRaisers : Obligations.ConditionsHaveTheirRaisers :=
  fun i s t h => show IsReportFor i s.cur (t.status, t.errOff) from exec_report h ▸ commandReport_isReportFor ..

/-! The misaligned cursor. -/

section
variable {s : State} (hc : bitInByte s.cur ≠ 0)
include hc

/-- A byte-granular field is not looked for at a cursor inside a byte, however much data is left (60_exceptions.md R111). -/
theorem takeField_misaligned {n : Nat} (hn : 0 < n) (st : Stage) :
    takeField s.len s.cur n st = .error ⟨.misalignedCursor, st, s.cur⟩ :=
  (takeField_error_iff hn).2 (.inl ⟨hc, rfl⟩)

theorem execRdfc_misaligned :
    execRdfc s = .next (raise (destinations .rdfc) ⟨.misalignedCursor, .fc, s.cur⟩ s) :=
  finish_next_iff.2 (.inl ⟨_, takeField_misaligned hc (by decide) .fc, rfl⟩)

theorem execRdu16_misaligned (rd : U16Reg) :
    execRdu16 rd s = .next (raise (destinations (.rdu16 rd)) ⟨.misalignedCursor, u16Stage rd, s.cur⟩ s) :=
  finish_next_iff.2 (.inl ⟨_, takeField_misaligned hc (by decide) (u16Stage rd), rfl⟩)

theorem execRdaddr_misaligned (ra : AddrReg) :
    execRdaddr ra s = .next (raise (destinations (.rdaddr ra)) ⟨.misalignedCursor, addrStage ra, s.cur⟩ s) :=
  finish_next_iff.2 (.inl ⟨_, takeField_misaligned hc (by decide) (addrStage ra), rfl⟩)

theorem execSpan_misaligned :
    execSpan s = .next (raise (destinations .span) ⟨.misalignedCursor, .payload, s.cur⟩ s) :=
  execSpan_raises (takeSpan_error_iff.2 (.inl ⟨hc, rfl⟩))

end

/-- An instruction other than `RDBITS` keeps the cursor on a byte boundary: a failure leaves it and a success moves it by
whole bytes (60_exceptions.md R109). -/
theorem exec_keeps_alignment {i : Instr} {s t : State} (h : exec i s = .next t) (hi : ∀ w, i ≠ .rdbits w)
    (hc : bitInByte s.cur = 0) : bitInByte t.cur = 0 := by
  unfold bitInByte at hc ⊢
  cases i with
  | rdbits w => exact absurd rfl (hi w)
  | rdfc => obtain ⟨f, -, rfl⟩ | ⟨-, -, -, rfl⟩ := execRdfc_next h <;> simp only [raise_cur, succeed_cur] <;> omega
  | rdu16 rd => obtain ⟨f, -, rfl⟩ | ⟨-, -, -, rfl⟩ := execRdu16_next h <;> simp only [raise_cur, succeed_cur] <;> omega
  | rdaddr ra => obtain ⟨f, -, rfl⟩ | ⟨-, -, -, rfl⟩ := execRdaddr_next h <;> simp only [raise_cur, succeed_cur] <;> omega
  | span => obtain ⟨f, -, rfl⟩ | ⟨-, -, rfl⟩ := execSpan_next h <;> simp only [raise_cur, succeed_cur] <;> omega
  | parse => obtain ⟨-, rfl⟩ | ⟨-, -, -, rfl⟩ := execParse_next h <;> simp only [raise_cur, succeed_cur, parsed] <;> omega
  | setfc | setaddrs | setdur | setseq | setcrc => cases h; exact hc

/-- A command that takes the cursor off a byte boundary is `RDBITS` (60_exceptions.md R109). -/
theorem rdbits_of_runCommand_misaligns {b : Byte} {s t : State} (h : runCommand b s = .next t)
    (hs : bitInByte s.cur = 0) (ht : bitInByte t.cur ≠ 0) : ∃ w, b = encode (.rdbits w) := by
  cases hb : decode b with
  | ok i =>
    rw [runCommand_of_decode hb] at h
    obtain ⟨w, rfl⟩ : ∃ w, i = .rdbits w :=
      Classical.byContradiction fun hi => ht (exec_keeps_alignment h (not_exists.1 hi) hs)
    exact ⟨w, ((decodeInvertsEncode b _).1 hb).symm⟩
  | error r =>
    simp only [runCommand, hb] at h
    cases h
    exact absurd hs ht

/-- Settles O20: the alignment test is raised first; `PARSE` is no raiser of it; and of what is served only a command, a write
to `CUR` and the reset touch the cursor. -/
theorem misalignedCursorFails : Obligations.MisalignedCursorFails := by
  refine ⟨fun s hc => ?_, fun s t h hcode => ?_, fun x s t h hs ht => ?_⟩
  · exact ⟨execRdfc_misaligned hc, execRdu16_misaligned hc .duration, execRdu16_misaligned hc .seqControl,
      execRdu16_misaligned hc .crc, execRdaddr_misaligned hc .addr1, execRdaddr_misaligned hc .addr2,
      execRdaddr_misaligned hc .addr3, execRdaddr_misaligned hc .addr4, execSpan_misaligned hc⟩
  · obtain ⟨-, -, hraiser, -⟩ := conditionsHaveTheirRaisers .parse s t h
    obtain ⟨hi, -⟩ := hraiser hcode
    obtain hi | ⟨_, hi⟩ | ⟨_, hi⟩ | hi := hi <;> cases hi
  · obtain ⟨b, rfl, hrun⟩ | ⟨v, -, -, rfl⟩ | ⟨v, rfl, -, -⟩ | ⟨v, -, -, rfl⟩ | ⟨v, -, -, rfl⟩ | ⟨ra, v, -, -, rfl⟩ |
      ⟨i, v, -, rfl⟩ | ⟨a, b, -, -, rfl⟩ | ⟨a, v, d, -, rfl⟩ | ⟨-, rfl⟩ := serve_next h
    · obtain ⟨w, rfl⟩ := rdbits_of_runCommand_misaligns hrun hs ht
      exact .inr ⟨w, rfl⟩
    · exact absurd hs ht
    · exact .inl ⟨v, rfl⟩
    · exact absurd hs ht
    · exact absurd hs ht
    · exact absurd hs (setArgAddr_cur ra _ s ▸ ht)
    · exact absurd hs ht
    · exact absurd hs ht
    · exact absurd hs ht
    · exact absurd rfl ht

end Sys2Proof.Machine
end

section
/-! The block between commands: the idle step, the platform's reset, and how long the span identity of a `SPAN` or `PARSE`
lasts (70_reset_and_hazards.md R120, R128). -/

namespace Sys2Proof.Machine

/-! The idle block and the platform's reset. -/

/-- Settles O6: a step serves an input, and there is none. -/
theorem idleBlockDoesNothing : Obligations.IdleBlockDoesNothing := by
  intro s hin
  unfold step
  rw [hin]

/-- Settles O52: the reset is served as any input is, and takes nothing from the state but what is not the block's. -/
theorem resetInputRestoresBlock : Obligations.ResetInputRestoresBlock :=
  fun _ _ hin => step_of_inputs hin

/-! The span identity. -/

/-- A command other than `SPAN` and `PARSE`, a reserved byte among them, leaves the span registers and `LEN` alone
(10_state.md R16, R23). -/
theorem runCommand_keeps_span {b : Byte} {s t : State} (h : runCommand b s = .next t) (hspan : b ≠ encode .span)
    (hparse : b ≠ encode .parse) : t.payOff = s.payOff ∧ t.payLen = s.payLen ∧ t.len = s.len := by
  by_cases hb : b ∈ legalCommands
  · obtain ⟨i, rfl⟩ := exists_encode_of_mem_legalCommands hb
    rw [runCommand_of_decode (decode_encode i)] at h
    obtain ⟨-, hkept, -⟩ := onlyTheNamedWriters i s t h
    obtain ⟨hoff, hlen⟩ := hkept (ne_of_apply_ne encode hspan) (ne_of_apply_ne encode hparse)
    obtain ⟨-, hframe, -⟩ := engineNeverWritesItsInputs i s t h
    exact ⟨hoff, hlen, hframe⟩
  · rw [runCommand_of_reserved hb] at h
    cases h
    exact ⟨rfl, rfl, rfl⟩

/-- Of what is served only `SPAN`, `PARSE`, a write to `LEN` and the reset touch the span registers or `LEN`
(70_reset_and_hazards.md R128). -/
theorem serve_keeps_span {x : Input} {s t : State} (h : serve x s = .next t) (hwrite : ∀ v, x ≠ .write 0x03 v)
    (hspan : x ≠ commandInput (encode .span)) (hparse : x ≠ commandInput (encode .parse)) (hreset : x ≠ .reset) :
    t.payOff = s.payOff ∧ t.payLen = s.payLen ∧ t.len = s.len := by
  obtain ⟨b, rfl, hrun⟩ | ⟨v, hx, -⟩ | ⟨v, -, -, rfl⟩ | ⟨v, -, -, rfl⟩ | ⟨v, -, -, rfl⟩ | ⟨ra, v, -, -, rfl⟩ |
    ⟨i, v, -, rfl⟩ | ⟨a, b, -, -, rfl⟩ | ⟨a, v, d, -, rfl⟩ | ⟨hx, -⟩ := serve_next h
  · exact runCommand_keeps_span hrun (ne_of_apply_ne commandInput hspan) (ne_of_apply_ne commandInput hparse)
  · exact absurd hx (hwrite v)
  · exact ⟨rfl, rfl, rfl⟩
  · exact ⟨rfl, rfl, rfl⟩
  · exact ⟨rfl, rfl, rfl⟩
  · exact ⟨setArgAddr_payOff .., setArgAddr_payLen .., setArgAddr_len ..⟩
  · exact ⟨rfl, rfl, rfl⟩
  · exact ⟨rfl, rfl, rfl⟩
  · exact ⟨rfl, rfl, rfl⟩
  · exact absurd hx hreset

/-- Settles O32: a success leaves the trailer's two bytes between the span and `LEN`, and what else is served touches
neither. -/
theorem spanIdentity : Obligations.SpanIdentity := by
  refine ⟨fun s t h hok => ?_, fun s t h hok => ?_, fun s t x a n hwrite hspan hparse hreset hoff hlen hid h => ?_⟩
  · obtain ⟨-, rfl⟩ | ⟨hl, -, -, rfl⟩ := execParse_next h
    · cases hok
    · exact ⟨s.len - 32, rfl, rfl, show 30 + (s.len - 32) + 2 = s.len by omega⟩
  · obtain ⟨f, -, rfl⟩ | ⟨-, hl, rfl⟩ := execSpan_next h
    · cases hok
    · exact ⟨s.len - s.cur / 8 - 2, rfl, rfl, show s.cur / 8 + (s.len - s.cur / 8 - 2) + 2 = s.len by omega⟩
  · obtain ⟨hoff', hlen', hframe⟩ := serve_keeps_span h hwrite hspan hparse hreset
    exact ⟨hoff'.trans hoff, hlen'.trans hlen, hid.trans hframe.symm⟩

end Sys2Proof.Machine
end
